-- ==== Sys2Proof/Word.lean ====
section
/-! DEFINITION. The words of the machine: byte, 64-bit word and address, vector register, mask register, and the
numbers that name registers (10_state.md R16, R18, R22; 00_scope.md R8). -/

namespace Sys2Proof

/-- A byte: 8 bits, bit 0 the least significant (00_scope.md R9, 20_memory.md R30). -/
abbrev Byte := BitVec 8

/-- A 64-bit general register value (10_state.md R22). -/
abbrev Word := BitVec 64

/-- A 64-bit address; arithmetic on it wraps modulo `2^64` (20_memory.md R30). -/
abbrev Addr := BitVec 64

/-- A vector register value of 512 bits, and the container of a narrower operand with zeros above it
(10_state.md R16, R17). -/
abbrev Vec := BitVec 512

/-- A mask register value, `MAX_KL` = 64 bits (10_state.md R18). -/
abbrev Mask := BitVec 64

/-- The number of a mask register, k0 to k7 (10_state.md R18). -/
abbrev KReg := Fin 8

/-- The number of a vector register, ZMM0 to ZMM31 (10_state.md R16). -/
abbrev VReg := Fin 32

/-- The number of a general register, RAX to R15 in the order of 10_state.md R22. -/
abbrev GReg := Fin 16

end Sys2Proof
end

