-- ==== Sys2Proof/Config.lean ====
section
/-! DEFINITION. The parameters of 00_scope.md R8 that are one value for the machine, and the two parameters the spec
leaves to a launch that need a type of their own. The parameters that vary from launch to launch are fields of
`Machine.Launch`. No value of this hardware is left free: no instruction has an undefined result. -/

namespace Sys2Proof.Config

/-- `MAX_KL`, the width in bits of a mask register (00_scope.md R8, D2). UNVERIFIED (entry 19), unsafe. -/
def maxKl : Nat := 64

/-- What a byte of memory that nothing has written reads as (00_scope.md R8 "Mem", 10_state.md R28).
DESIGN CHOICE (entry 5), unsafe: the spec gives no initial contents. -/
def unlistedByte : Byte := 0#8

/-- The longest instruction in bytes (30_encoding.md R59). -/
def maxLength : Nat := 12

end Sys2Proof.Config

namespace Sys2Proof

/-- `IMM_RESERVED_POLICY` of 00_scope.md R8: what an immediate with any of bits 7:3 set does (30_encoding.md R61 a). -/
inductive ImmPolicy where
  | refuse
  | ignore
deriving DecidableEq, Repr

/-- The default policy 00_scope.md R8 states. -/
def ImmPolicy.default : ImmPolicy := .refuse

/-- The operating modes the spec names (00_scope.md R4, 60_exceptions.md R94, 70_reset_and_hazards.md R110). Only
`bits64` is admitted (30_encoding.md R63, D1). -/
inductive Mode where
  | bits64
  | compatibility
  | legacy
  | realAddress
  | virtual8086
deriving DecidableEq, Repr

end Sys2Proof
end

