-- ==== Sys2Proof/Syntax.lean ====
section
/-! DEFINITION. The instructions: one constructor of `Instr` per row of spec/opcode_table.json, over one record of
operands (30_encoding.md R44, R45; 10_state.md R21). The memory operand keeps the encoding's own cases
(30_encoding.md R56), so that an instruction has exactly one encoding. -/

namespace Sys2Proof

/-- Signed (VPCMPB) or unsigned (VPCMPUB) comparison (00_scope.md R1). -/
inductive Signedness where
  | signed
  | unsigned
deriving DecidableEq, Repr

/-- The vector length `VL` of a form (00_scope.md R8). -/
inductive VLen where
  | v128
  | v256
  | v512
deriving DecidableEq, Repr

/-- The comparison predicates of 40_vpcmpb_vpcmpub.md R68, in the order of their numbers 0 to 7. -/
inductive Predicate where
  | eq
  | lt
  | le
  | false
  | neq
  | nlt
  | nle
  | true
deriving DecidableEq, Repr

/-- The displacement that `ModRM.mod` selects: none (00), one byte scaled by `VL/8` (01), four bytes unscaled (10)
(30_encoding.md R56, R57). -/
inductive Disp where
  | none
  | d8 (d : BitVec 8)
  | d32 (d : BitVec 32)
deriving DecidableEq, Repr

/-- The index part of a SIB byte: the scale bits `sib[7:6]`, kept also where there is no index and they have no
effect, and the index register; `none` is the spelling `X = 0`, `idx = 100b` (30_encoding.md R56). -/
structure Index where
  scale : BitVec 2
  reg : Option GReg
deriving DecidableEq, Repr

/-- The addressing modes of 30_encoding.md R56. -/
inductive MemOperand where
  /-- `mod = 00b`, `rm = 101b`: relative to the byte after the instruction. -/
  | ripRel (d : BitVec 32)
  /-- No SIB byte: base register and displacement. -/
  | base (b : GReg) (disp : Disp)
  /-- A SIB byte with a base register. -/
  | sib (b : GReg) (index : Index) (disp : Disp)
  /-- A SIB byte without a base register (`mod = 00b`, `bs = 101b`). -/
  | sibNoBase (index : Index) (d : BitVec 32)
deriving DecidableEq, Repr

/-- Operand 3, the second source: a vector register or a memory location (30_encoding.md R45, R53, R56). -/
inductive Src2 where
  | reg (n : VReg)
  | mem (m : MemOperand)
deriving DecidableEq, Repr

/-- The operands every form has (30_encoding.md R45, R64): the destination mask register `kd`, the optional writemask
`kw` (`none` is "no writemask"), the first source `vs1`, the second source, and the immediate byte as it stands in the
instruction (10_state.md R21, 30_encoding.md R58). -/
structure Operands where
  kd : KReg
  kw : Option KReg
  vs1 : VReg
  src2 : Src2
  imm8 : BitVec 8
deriving DecidableEq, Repr

/-- The six rows of the opcode table (30_encoding.md R44). -/
inductive Instr where
  /-- Form 1, `EVEX.128.66.0F3A.W0 3F /r ib` (40_vpcmpb_vpcmpub.md R77). -/
  | vpcmpb128 (o : Operands)
  /-- Form 2, `EVEX.256.66.0F3A.W0 3F /r ib` (40_vpcmpb_vpcmpub.md R78). -/
  | vpcmpb256 (o : Operands)
  /-- Form 3, `EVEX.512.66.0F3A.W0 3F /r ib` (40_vpcmpb_vpcmpub.md R79). -/
  | vpcmpb512 (o : Operands)
  /-- Form 4, `EVEX.128.66.0F3A.W0 3E /r ib` (40_vpcmpb_vpcmpub.md R80). -/
  | vpcmpub128 (o : Operands)
  /-- Form 5, `EVEX.256.66.0F3A.W0 3E /r ib` (40_vpcmpb_vpcmpub.md R81). -/
  | vpcmpub256 (o : Operands)
  /-- Form 6, `EVEX.512.66.0F3A.W0 3E /r ib` (40_vpcmpb_vpcmpub.md R82). -/
  | vpcmpub512 (o : Operands)
deriving DecidableEq, Repr

/-- The operands of an instruction. -/
def Instr.operands : Instr → Operands
  | .vpcmpb128 o => o
  | .vpcmpb256 o => o
  | .vpcmpb512 o => o
  | .vpcmpub128 o => o
  | .vpcmpub256 o => o
  | .vpcmpub512 o => o

end Sys2Proof
end

