-- ==== Sys2Proof/WellFormed.lean ====
section
/-! DEFINITION. Which instructions an encoding can spell: the checks that the types of the operands do not already
make (10_state.md R19; 30_encoding.md R56). The reserved immediate bits are a matter of the launch's policy and are
checked apart (`immAdmitted`). -/

namespace Sys2Proof

/-- k0 is never a writemask: the selector 000 means "no writemask" (10_state.md R19). -/
def maskSelectable : Option KReg → Bool
  | none => true
  | some k => k != 0

/-- The low three bits of a general register number, what `rm`, `idx` or `bs` holds of it (30_encoding.md R56). -/
def gregLow (g : GReg) : Nat := g.val % 8

/-- An index register other than number 4, whose spelling means "no index" (30_encoding.md R56). -/
def Index.wellFormed (i : Index) : Bool :=
  match i.reg with
  | none => true
  | some g => g != 4

/-- A memory operand that the bytes of 30_encoding.md R56 can spell: a base without SIB is not 100b in its low bits
(that spells a SIB byte); a base 101b in its low bits needs a displacement (with `mod = 00b` it spells the
instruction-pointer-relative form, or with a SIB byte the form without a base). -/
def MemOperand.wellFormed : MemOperand → Bool
  | .ripRel _ => true
  | .base b disp => gregLow b != 4 && (gregLow b != 5 || disp != .none)
  | .sib b index disp => index.wellFormed && (gregLow b != 5 || disp != .none)
  | .sibNoBase index _ => index.wellFormed

/-- See `MemOperand.wellFormed`; every register can be named. -/
def Src2.wellFormed : Src2 → Bool
  | .reg _ => true
  | .mem m => m.wellFormed

/-- The operands an encoding can spell. -/
def Operands.wellFormed (o : Operands) : Bool := maskSelectable o.kw && o.src2.wellFormed

/-- The instructions an encoding can spell. -/
def Instr.wellFormed (i : Instr) : Bool := i.operands.wellFormed

/-- Whether the launch's policy lets an immediate pass: any under `ignore`, only those with `imm8[7:3] = 0` under
`refuse` (30_encoding.md R61 a, D5). -/
def immAdmitted (policy : ImmPolicy) (imm8 : BitVec 8) : Bool :=
  match policy with
  | .ignore => true
  | .refuse => imm8.extractLsb' 3 5 == 0#5

end Sys2Proof
end

