-- ==== Sys2Proof/Decode.lean ====
section
/-! DEFINITION. The decoder of 30_encoding.md R67, total on any bytes and refusing by name, and the encoder written from
the same tables (R47 to R60). Bits marked "inverted" in R48 to R50 are complemented here, once. -/

namespace Sys2Proof

/-! ### Forms -/

/-- The vector length in bits (00_scope.md R8). -/
def VLen.bits : VLen → Nat
  | .v128 => 128
  | .v256 => 256
  | .v512 => 512

/-- `KL`, the number of byte elements and of mask bits produced (00_scope.md R8). -/
def VLen.kl (vl : VLen) : Nat := vl.bits / 8

/-- The vector width in bytes, the factor `N` of a one-byte displacement (30_encoding.md R57, D25) and the size of the
memory operand (20_memory.md R29). -/
def VLen.bytes (vl : VLen) : Nat := vl.bits / 8

/-- The row's instruction with the given signedness and vector length (30_encoding.md R44). -/
def Instr.ofForm : Signedness → VLen → Operands → Instr
  | .signed, .v128, o => .vpcmpb128 o
  | .signed, .v256, o => .vpcmpb256 o
  | .signed, .v512, o => .vpcmpb512 o
  | .unsigned, .v128, o => .vpcmpub128 o
  | .unsigned, .v256, o => .vpcmpub256 o
  | .unsigned, .v512, o => .vpcmpub512 o

/-- VPCMPB compares signed, VPCMPUB unsigned bytes (00_scope.md R1). -/
def Instr.signedness : Instr → Signedness
  | .vpcmpb128 _ => .signed
  | .vpcmpb256 _ => .signed
  | .vpcmpb512 _ => .signed
  | .vpcmpub128 _ => .unsigned
  | .vpcmpub256 _ => .unsigned
  | .vpcmpub512 _ => .unsigned

/-- The vector length of a row (30_encoding.md R44). -/
def Instr.vlen : Instr → VLen
  | .vpcmpb128 _ => .v128
  | .vpcmpb256 _ => .v256
  | .vpcmpb512 _ => .v512
  | .vpcmpub128 _ => .v128
  | .vpcmpub256 _ => .v256
  | .vpcmpub512 _ => .v512

/-! ### Length -/

/-- The displacement bytes of `mod` (30_encoding.md R59). -/
def Disp.length : Disp → Nat
  | .none => 0
  | .d8 _ => 1
  | .d32 _ => 4

/-- `s + d` of 30_encoding.md R59: the SIB and displacement bytes. -/
def Src2.extraLength : Src2 → Nat
  | .reg _ => 0
  | .mem (.ripRel _) => 4
  | .mem (.base _ disp) => disp.length
  | .mem (.sib _ _ disp) => 1 + disp.length
  | .mem (.sibNoBase _ _) => 5

/-- The instruction's length in bytes as a function of its second source (30_encoding.md R59). -/
def Src2.instrLength (src2 : Src2) : Nat := 7 + src2.extraLength

/-- The instruction's length in bytes (30_encoding.md R59). -/
def Instr.length (i : Instr) : Nat := i.operands.src2.instrLength

/-! ### Bit fields -/

/-- Bits `lo + n - 1` down to `lo` of a byte (00_scope.md R9). -/
def field (b : Byte) (lo n : Nat) : BitVec n := b.extractLsb' lo n

/-- A vector register number from its extension bits and its low bits (30_encoding.md R53, R54). -/
def vregOf (hi : BitVec 1) (lo : BitVec 4) : VReg := (hi ++ lo).toFin

/-- A general register number `ext*8 + low` (30_encoding.md R56). -/
def gregOf (ext : BitVec 1) (low : BitVec 3) : GReg := (ext ++ low).toFin

/-- Four bytes, least significant first, as one displacement (30_encoding.md R56, D9). -/
def d32Of (a b c d : Byte) : BitVec 32 := d ++ c ++ b ++ a

/-! ### Decoding -/

/-- Why the decoder refuses. All but the last are the reasons of 30_encoding.md R67; a refusal says that the model
gives the bytes no meaning, not that the chip faults (60_exceptions.md R102). -/
inductive DecodeReason where
  /-- Not the escape byte, the map, the implied 66 or one of the two opcode bytes (R61 h, j). -/
  | notThisInstruction
  /-- `W = 1` spells another instruction (R61 e). -/
  | w1OtherInstruction
  /-- `P0[3:2] != 00b` or `P1[2] = 0` (R61 g). -/
  | reservedPrefixBits
  /-- Stored `R` or `R'` is 0 (R61 f). -/
  | maskRegExtension
  /-- `z = 1` (R61 b). -/
  | zSet
  /-- `b = 1` (R61 c). -/
  | bSet
  /-- `L'L = 11b` (R61 d). -/
  | badVectorLength
  /-- An unused `X` or `B` is stored 0 (R61 i). -/
  | unusedXorB
  /-- `imm8[7:3] != 0` under the policy `refuse` (R61 a). -/
  | reservedImmBits
  /-- The model's own (DESIGN CHOICE, entry 18, safe): the byte string ends before the instruction does. A step never
  meets it, since memory always holds `Config.maxLength` further bytes. -/
  | truncated
deriving DecidableEq, Repr

/-- The signedness that the opcode byte selects (30_encoding.md R51). -/
def signednessOf (op : Byte) : Option Signedness :=
  if op = 0x3F#8 then some .signed else if op = 0x3E#8 then some .unsigned else none

/-- The vector length that `L'L` selects (30_encoding.md R50). -/
def vlenOf (ll : BitVec 2) : Option VLen :=
  match ll.toNat with
  | 0 => some .v128
  | 1 => some .v256
  | 2 => some .v512
  | _ => none

/-- The writemask that `aaa` selects: 000 is "no writemask" (10_state.md R19, 30_encoding.md R55). -/
def writemaskOf (aaa : BitVec 3) : Option KReg :=
  if aaa = 0#3 then none else some aaa.toFin

/-- The tests of bytes 0 to 4, in the order of 30_encoding.md R67: the form they spell, or the first refusal. -/
def decodeForm (b0 p0 p1 p2 op : Byte) : Except DecodeReason (Signedness × VLen) :=
  if b0 ≠ 0x62#8 then .error .notThisInstruction
  else if field p0 0 2 ≠ 3#2 ∨ field p1 0 2 ≠ 1#2 then .error .notThisInstruction
  else
    match signednessOf op with
    | none => .error .notThisInstruction
    | some sg =>
      if field p1 7 1 ≠ 0#1 then .error .w1OtherInstruction
      else if field p0 2 2 ≠ 0#2 ∨ field p1 2 1 ≠ 1#1 then .error .reservedPrefixBits
      else if field p0 7 1 ≠ 1#1 ∨ field p0 4 1 ≠ 1#1 then .error .maskRegExtension
      else if field p2 7 1 ≠ 0#1 then .error .zSet
      else if field p2 4 1 ≠ 0#1 then .error .bSet
      else
        match vlenOf (field p2 5 2) with
        | none => .error .badVectorLength
        | some vl => .ok (sg, vl)

/-- Four displacement bytes off the front of the rest of the instruction. -/
def takeD32 : List Byte → Except DecodeReason (BitVec 32 × List Byte)
  | a :: b :: c :: d :: rest => .ok (d32Of a b c d, rest)
  | _ => .error .truncated

/-- The displacement that `mod` (00, 01 or 10) announces (30_encoding.md R56). -/
def takeDisp (md : BitVec 2) (bs : List Byte) : Except DecodeReason (Disp × List Byte) :=
  if md = 0#2 then .ok (.none, bs)
  else if md = 1#2 then
    match bs with
    | d :: rest => .ok (.d8 d, rest)
    | [] => .error .truncated
  else
    match takeD32 bs with
    | .ok (d, rest) => .ok (.d32 d, rest)
    | .error r => .error r

/-- The SIB byte and what follows it (30_encoding.md R56, `rm = 100b`); `x` and `b` are the un-inverted bits. -/
def decodeSib (x b : BitVec 1) (md : BitVec 2) (sib : Byte) (bs : List Byte) :
    Except DecodeReason (MemOperand × List Byte) :=
  let idx := gregOf x (field sib 3 3)
  let index : Index := { scale := field sib 6 2, reg := if idx = 4 then none else some idx }
  if md = 0#2 ∧ field sib 0 3 = 5#3 then
    if b ≠ 0#1 then .error .unusedXorB
    else
      match takeD32 bs with
      | .ok (d, rest) => .ok (.sibNoBase index d, rest)
      | .error r => .error r
  else
    match takeDisp md bs with
    | .ok (disp, rest) => .ok (.sib (gregOf b (field sib 0 3)) index disp, rest)
    | .error r => .error r

/-- Operand 3 in the memory form (30_encoding.md R56), `mod` not 11b. -/
def decodeMem (x b : BitVec 1) (md : BitVec 2) (rm : BitVec 3) (bs : List Byte) :
    Except DecodeReason (MemOperand × List Byte) :=
  if rm = 4#3 then
    match bs with
    | sib :: rest => decodeSib x b md sib rest
    | [] => .error .truncated
  else if md = 0#2 ∧ rm = 5#3 then
    if x ≠ 0#1 ∨ b ≠ 0#1 then .error .unusedXorB
    else
      match takeD32 bs with
      | .ok (d, rest) => .ok (.ripRel d, rest)
      | .error r => .error r
  else if x ≠ 0#1 then .error .unusedXorB
  else
    match takeDisp md bs with
    | .ok (disp, rest) => .ok (.base (gregOf b rm) disp, rest)
    | .error r => .error r

/-- Operand 3 (30_encoding.md R53, R56) from `P0` and ModRM, with the bytes after them. -/
def decodeSrc2 (p0 modrm : Byte) (bs : List Byte) : Except DecodeReason (Src2 × List Byte) :=
  let x := ~~~ field p0 6 1
  let b := ~~~ field p0 5 1
  let md := field modrm 6 2
  let rm := field modrm 0 3
  if md = 3#2 then .ok (.reg (vregOf x (b ++ rm)), bs)
  else
    match decodeMem x b md rm bs with
    | .ok (m, rest) => .ok (.mem m, rest)
    | .error r => .error r

/-- Decode of a byte string (30_encoding.md R67): an instruction and the bytes after it, or a refusal. -/
def decode (policy : ImmPolicy) (bs : List Byte) : Except DecodeReason (Instr × List Byte) :=
  match bs with
  | b0 :: p0 :: p1 :: p2 :: op :: modrm :: rest =>
    match decodeForm b0 p0 p1 p2 op with
    | .error r => .error r
    | .ok (sg, vl) =>
      match decodeSrc2 p0 modrm rest with
      | .error r => .error r
      | .ok (src2, imm8 :: rest') =>
        if immAdmitted policy imm8 then
          .ok (Instr.ofForm sg vl
            { kd := (field modrm 3 3).toFin
              kw := writemaskOf (field p2 0 3)
              vs1 := vregOf (~~~ field p2 3 1) (~~~ field p1 3 4)
              src2 := src2
              imm8 := imm8 }, rest')
        else .error .reservedImmBits
      | .ok (_, []) => .error .truncated
  | _ => .error .truncated

/-! ### Encoding -/

/-- How operand 3 is spelled: the un-inverted `X` and `B`, `mod`, `rm`, and the SIB and displacement bytes. -/
structure RmEncoding where
  x : BitVec 1
  b : BitVec 1
  md : BitVec 2
  rm : BitVec 3
  tail : List Byte
deriving DecidableEq, Repr

/-- The extension bit of a general register number (30_encoding.md R56). -/
def gregExt (g : GReg) : BitVec 1 := BitVec.ofNat 1 (g.val / 8)

/-- The low three bits of a general register number (30_encoding.md R56). -/
def gregLow3 (g : GReg) : BitVec 3 := BitVec.ofNat 3 g.val

/-- A displacement's four bytes, least significant first (30_encoding.md R56). -/
def d32Bytes (d : BitVec 32) : List Byte :=
  [d.extractLsb' 0 8, d.extractLsb' 8 8, d.extractLsb' 16 8, d.extractLsb' 24 8]

/-- The `mod` that announces a displacement (30_encoding.md R56). -/
def Disp.mod : Disp → BitVec 2
  | .none => 0#2
  | .d8 _ => 1#2
  | .d32 _ => 2#2

/-- The bytes of a displacement (30_encoding.md R56). -/
def Disp.bytes : Disp → List Byte
  | .none => []
  | .d8 d => [d]
  | .d32 d => d32Bytes d

/-- The number that `X` and `idx` spell: 4 for no index (30_encoding.md R56). -/
def Index.number (i : Index) : GReg := i.reg.getD 4

/-- The SIB byte with base bits `bs` (30_encoding.md R56). -/
def Index.sibByte (i : Index) (bs : BitVec 3) : Byte := i.scale ++ gregLow3 i.number ++ bs

/-- The spelling of operand 3 (30_encoding.md R53, R56); an unused `X` or `B` is 0 (stored 1). -/
def encodeSrc2 : Src2 → RmEncoding
  | .reg n =>
    { x := BitVec.ofNat 1 (n.val / 16), b := BitVec.ofNat 1 (n.val / 8), md := 3#2, rm := BitVec.ofNat 3 n.val,
      tail := [] }
  | .mem (.ripRel d) => { x := 0#1, b := 0#1, md := 0#2, rm := 5#3, tail := d32Bytes d }
  | .mem (.base g disp) => { x := 0#1, b := gregExt g, md := disp.mod, rm := gregLow3 g, tail := disp.bytes }
  | .mem (.sib g index disp) =>
    { x := gregExt index.number, b := gregExt g, md := disp.mod, rm := 4#3,
      tail := index.sibByte (gregLow3 g) :: disp.bytes }
  | .mem (.sibNoBase index d) =>
    { x := gregExt index.number, b := 0#1, md := 0#2, rm := 4#3, tail := index.sibByte 5#3 :: d32Bytes d }

/-- The `L'L` bits of a vector length (30_encoding.md R46, R50). -/
def VLen.ll : VLen → BitVec 2
  | .v128 => 0#2
  | .v256 => 1#2
  | .v512 => 2#2

/-- The opcode byte of a signedness (30_encoding.md R51). -/
def Signedness.opcode : Signedness → Byte
  | .signed => 0x3F#8
  | .unsigned => 0x3E#8

/-- The `aaa` bits of a writemask (30_encoding.md R55). -/
def aaaOf : Option KReg → BitVec 3
  | none => 0#3
  | some n => BitVec.ofNat 3 n.val

/-- Byte `P0` (30_encoding.md R48). -/
def encodeP0 (e : RmEncoding) : Byte := 1#1 ++ ~~~ e.x ++ ~~~ e.b ++ 1#1 ++ 0#2 ++ 3#2

/-- Byte `P1` (30_encoding.md R49). -/
def encodeP1 (vs1 : VReg) : Byte := 0#1 ++ ~~~ BitVec.ofNat 4 vs1.val ++ 1#1 ++ 1#2

/-- Byte `P2` (30_encoding.md R50). -/
def encodeP2 (vl : VLen) (vs1 : VReg) (kw : Option KReg) : Byte :=
  0#1 ++ vl.ll ++ 0#1 ++ ~~~ BitVec.ofNat 1 (vs1.val / 16) ++ aaaOf kw

/-- The ModRM byte (30_encoding.md R52). -/
def encodeModrm (e : RmEncoding) (kd : KReg) : Byte := e.md ++ BitVec.ofNat 3 kd.val ++ e.rm

/-- The bytes of an instruction in increasing address order (30_encoding.md R47). -/
def encode (i : Instr) : List Byte :=
  let o := i.operands
  let e := encodeSrc2 o.src2
  [0x62#8, encodeP0 e, encodeP1 o.vs1, encodeP2 i.vlen o.vs1 o.kw, i.signedness.opcode, encodeModrm e o.kd]
    ++ e.tail ++ [o.imm8]

/-! ### The host's view of a table word -/

/-- Bits `8n+7:8n` of the lowest `nbits` bits of a table word. -/
def wordByte (nbits w n : Nat) : Byte := BitVec.ofNat 8 ((w % 2 ^ nbits) / 2 ^ (8 * n))

/-- The bytes, in increasing address order, of an instruction whose bits are `w`, of which the table gives the lowest
`nbits`; every bit above them is 0, up to the longest instruction. Byte `n` of the instruction is bits `8n+7:8n` of `w`;
but where that order does not begin with the escape byte and the opposite one does, which is how the table writes its
match values (30_encoding.md R60), byte 0 is the most significant. DESIGN CHOICE (entry 13), safe. -/
def wordBytes (nbits w : Nat) : List Byte :=
  let n := nbits / 8
  if wordByte nbits w 0 ≠ 0x62#8 ∧ 1 ≤ n ∧ wordByte nbits w (n - 1) = 0x62#8 then
    (List.range Config.maxLength).map fun t => if t < n then wordByte nbits w (n - 1 - t) else 0#8
  else
    (List.range Config.maxLength).map fun t => wordByte nbits w t

/-- The instruction the decoder reads from a table word, under the default policy of 00_scope.md R8. -/
def decodeTableWord (nbits w : Nat) : Option Instr :=
  match decode ImmPolicy.default (wordBytes nbits w) with
  | .ok (i, _) => some i
  | .error _ => none

end Sys2Proof
end

