-- ==== Sys2Proof/Machine/State.lean ====
section
/-! DEFINITION. The state of the machine as plain data (10_state.md R15 to R28, 20_memory.md R30), the parameters of a
launch that its steps read (00_scope.md R8), the reasons a step can stop with (60_exceptions.md R99), and the state a
run starts from. -/

namespace Sys2Proof.Machine

/-- Memory: (address, byte) pairs with strictly rising addresses below `2^64`, no byte equal to what an unlisted
address reads as (20_memory.md R30; entry 5). -/
abbrev Memory := List Host.Cell

/-- Every address of the list is above `lo` in order, below `2^64`, and lists a byte that differs from the unlisted one. -/
def Memory.wfFrom (lo : Nat) : Memory → Bool
  | [] => true
  | (a, b) :: rest =>
    decide (lo ≤ a) && decide (a < 2 ^ 64) && b != Config.unlistedByte && Memory.wfFrom (a + 1) rest

/-- The canonical form: equal memories are equal lists. -/
def Memory.wf (m : Memory) : Bool := Memory.wfFrom 0 m

/-- A window of addresses `base .. base + size - 1` that `MemAdmit` permits (20_memory.md R37). -/
structure Window where
  base : Nat
  size : Nat
deriving DecidableEq, Repr

/-- What the spec hands a step as parameters fixed for a launch (00_scope.md R8, R14; 10_state.md R15, R26). No
instruction writes any of it. The bits of `CR0`, `CR4`, `XCR0` and CPUID are the ones 10_state.md R26 lists; nothing
else of those registers is in the spec (91_not_in_source.md N7). DESIGN CHOICE (entry 8), safe: held in State. -/
structure Launch where
  /-- The operating mode (60_exceptions.md R106). -/
  mode : Mode
  /-- CPUID leaf 07H sub-leaf 0, EBX bit 16 (10_state.md R26). -/
  avx512f : Bool
  /-- `HAS_AVX512BW`: CPUID leaf 07H sub-leaf 0, EBX bit 30 (10_state.md R26, 60_exceptions.md R96). -/
  avx512bw : Bool
  /-- `HAS_AVX512VL`: CPUID leaf 07H sub-leaf 0, EBX bit 31 (10_state.md R26, 60_exceptions.md R96). -/
  avx512vl : Bool
  /-- `CR4.OSXSAVE`, CR4 bit 18 (10_state.md R26). -/
  osxsave : Bool
  /-- XCR0 bit 1, XMM state (10_state.md R26). -/
  xcr0Sse : Bool
  /-- XCR0 bit 2, upper YMM state (10_state.md R26). -/
  xcr0Avx : Bool
  /-- XCR0 bit 5, mask registers (10_state.md R26). -/
  xcr0Opmask : Bool
  /-- XCR0 bit 6, upper halves of ZMM0 to ZMM15 (10_state.md R26). -/
  xcr0ZmmHi256 : Bool
  /-- XCR0 bit 7, ZMM16 to ZMM31 (10_state.md R26). -/
  xcr0Hi16Zmm : Bool
  /-- `CR0.TS`, CR0 bit 3 (10_state.md R26). -/
  ts : Bool
  /-- `IMM_RESERVED_POLICY` (00_scope.md R8, D5). -/
  immPolicy : ImmPolicy
  /-- `MemAdmit`: a byte may be read where some window holds its address (20_memory.md R31, R37, D12). -/
  admitted : List Window
deriving DecidableEq, Repr

/-- The state of the machine. -/
structure State where
  /-- k0 to k7 (10_state.md R18). -/
  k : Vector Mask 8
  /-- ZMM0 to ZMM31 (10_state.md R16). -/
  v : Vector Vec 32
  /-- RAX to R15 (10_state.md R22). -/
  x : Vector Word 16
  /-- The address of the first byte of the instruction to execute (10_state.md R23). -/
  pc : Addr
  /-- The status flags register (10_state.md R24); PRESUMED width and reset value (entry 4). -/
  rflags : BitVec 64
  /-- The floating-point control and status register (10_state.md R25); PRESUMED width and reset value (entry 4). -/
  mxcsr : BitVec 32
  /-- Memory, data and instruction bytes (20_memory.md R30). -/
  mem : Memory
  /-- The parameters of the launch (00_scope.md R8). -/
  launch : Launch
deriving DecidableEq, Repr

/-- Why a step ends in a fault: the exceptions of 60_exceptions.md R99, each with what R99 says it records. A fault is
terminal and writes nothing (60_exceptions.md R101, D21; entry 14). -/
inductive Fault where
  /-- A feature flag of the row is clear, or `CR4.OSXSAVE` or an XCR0 bit is (60_exceptions.md R96, R97). Raised by
  `gate`. Safe: the spec's own outcome. -/
  | invalidOpcode (pc : Addr)
  /-- `CR0.TS` is set (60_exceptions.md R97). Raised by `gate`. Safe: the spec's own outcome. -/
  | deviceNotAvailable (pc : Addr)
  /-- `MemAdmit` refuses a byte of the `n`-byte memory operand at `addr` (60_exceptions.md R98). Raised by `memRead`.
  Safe: the model may fault where the chip suppresses the fault of a masked-off element (entry 21). -/
  | memFault (pc addr : Addr) (n : Nat)
deriving DecidableEq, Repr

/-- Why the model gives a step no meaning (60_exceptions.md R102), with the `pc` that R99 says is recorded. -/
inductive Refusal where
  /-- An instruction without a meaning. Raised by an arm of `exec` that has none; there is no such arm. Safe. -/
  | notModelled (mnemonic : String)
  /-- The decoder refuses the bytes at `pc` (30_encoding.md R67). Raised by `step`. Safe. -/
  | decode (reason : DecodeReason) (pc : Addr)
  /-- `pc + len` would pass `2^64 - 1` (10_state.md R23, D14). Raised by `gate`. Safe. -/
  | ipWrap (pc : Addr)
  /-- A mode other than 64-bit mode (30_encoding.md R63, D1). Raised by `step` and `gate`. Safe. -/
  | not64BitMode (pc : Addr)
deriving DecidableEq, Repr

/-- The parameters of the launch that `State.reset` stands for: the premises of 70_reset_and_hazards.md R111, the
default policy of 00_scope.md R8, every address admitted. DESIGN CHOICE (entries 1, 6, 7), unsafe. -/
def Launch.reset : Launch where
  mode := .bits64
  avx512f := true
  avx512bw := true
  avx512vl := true
  osxsave := true
  xcr0Sse := true
  xcr0Avx := true
  xcr0Opmask := true
  xcr0ZmmHi256 := true
  xcr0Hi16Zmm := true
  ts := false
  immPolicy := ImmPolicy.default
  admitted := [{ base := 0, size := 2 ^ 64 }]

/-- The state a run starts from. The spec gives no reset value of any register (10_state.md R28): zero in each is a
DESIGN CHOICE (entries 2, 3), unsafe; `rflags` and `mxcsr` are PRESUMED, the family's (entry 4), unsafe. -/
def State.reset : State where
  k := Vector.replicate 8 0
  v := Vector.replicate 32 0
  x := Vector.replicate 16 0
  pc := 0
  rflags := 0x2
  mxcsr := 0x1F80
  mem := []
  launch := Launch.reset

end Sys2Proof.Machine
end

