-- ==== Sys2Proof/Machine/Flags.lean ====
section
/-! DEFINITION. The comparison and the mask it produces, the only flag-like result of these instructions (10_state.md
R18, R24): predicates, byte values, the operand-level function of 40_vpcmpb_vpcmpub.md R87, and the page's lane loop
(R72) as an independent second definition. -/

namespace Sys2Proof.Machine

/-- The predicate that a number selects (40_vpcmpb_vpcmpub.md R68). -/
def predicateOf (p : BitVec 3) : Predicate :=
  match p.toNat with
  | 0 => .eq
  | 1 => .lt
  | 2 => .le
  | 3 => .false
  | 4 => .neq
  | 5 => .nlt
  | 6 => .nle
  | _ => .true

/-- The predicate of an immediate, `pred = imm8[2:0]` (30_encoding.md R58). -/
def predicateOfImm (imm8 : Byte) : Predicate := predicateOf (imm8.extractLsb' 0 3)

/-- `a OP b` on integers (40_vpcmpb_vpcmpub.md R68). -/
def relHolds (p : Predicate) (a b : Int) : Bool :=
  match p with
  | .eq => decide (a = b)
  | .lt => decide (a < b)
  | .le => decide (a ≤ b)
  | .false => Bool.false
  | .neq => !decide (a = b)
  | .nlt => !decide (a < b)
  | .nle => !decide (a ≤ b)
  | .true => Bool.true

/-- `uint8` of 00_scope.md R11. -/
def uint8 (b : Byte) : Int := (b.toNat : Int)

/-- `sint8` of 00_scope.md R11: two's complement (D16). -/
def sint8 (b : Byte) : Int := if b.getLsbD 7 then uint8 b - 256 else uint8 b

/-- The byte as the number the form compares (40_vpcmpb_vpcmpub.md R69, R70). -/
def byteValue : Signedness → Byte → Int
  | .signed, b => sint8 b
  | .unsigned, b => uint8 b

/-- Element `j` of a source, bits `8j+7:8j` (40_vpcmpb_vpcmpub.md R72). -/
def lane (a : Vec) (j : Nat) : Byte := a.extractLsb' (8 * j) 8

/-- `val(SRC1[8j+7:8j]) OP val(SRC2[8j+7:8j])` (40_vpcmpb_vpcmpub.md R87). -/
def laneHolds (sg : Signedness) (p : Predicate) (a b : Vec) (j : Nat) : Bool :=
  relHolds p (byteValue sg (lane a j)) (byteValue sg (lane b j))

/-- The mask whose bit `j` is `f j` for `j < n`, zero elsewhere. -/
def maskOfLanes (f : Nat → Bool) : Nat → Mask
  | 0 => 0
  | n + 1 => maskOfLanes f n ||| (BitVec.ofBool (f n)).setWidth 64 <<< n

/-- `M` of 40_vpcmpb_vpcmpub.md R87: the low `KL` bits of the writemask, all ones where there is none. -/
def maskLow (kl : Nat) : Option Mask → Mask
  | none => maskOfLanes (fun _ => Bool.true) kl
  | some m => maskOfLanes (fun j => m.getLsbD j) kl

/-- The operand-level function (40_vpcmpb_vpcmpub.md R87): `zext_64(M AND C)`. Bits of the sources at and above
`8*KL` and bits of the writemask at and above `KL` are not read. -/
def vpcmp (sg : Signedness) (kl : Nat) (p : Predicate) (mask : Option Mask) (a b : Vec) : Mask :=
  maskLow kl mask &&& maskOfLanes (laneHolds sg p a b) kl

/-! ### The page's lane loop -/

/-- `DEST[j] := b`. -/
def setMaskBit (d : Mask) (j : Nat) (b : Bool) : Mask :=
  if b then d ||| 1#64 <<< j else d &&& ~~~ (1#64 <<< j)

/-- One turn of the loop body of 40_vpcmpb_vpcmpub.md R72: an enabled lane gets the result of its comparison, a
masked-off lane 0 (R73). -/
def laneStep (sg : Signedness) (p : Predicate) (mask : Option Mask) (a b : Vec) (d : Mask) (j : Nat) : Mask :=
  if mask.all (fun m => m.getLsbD j) then setMaskBit d j (laneHolds sg p a b j) else setMaskBit d j Bool.false

/-- `FOR j := 0 TO n-1`, from the destination's old value `d`. -/
def laneLoop (sg : Signedness) (p : Predicate) (mask : Option Mask) (a b : Vec) (d : Mask) : Nat → Mask
  | 0 => d
  | n + 1 => laneStep sg p mask a b (laneLoop sg p mask a b d n) n

/-- `DEST[MAX_KL-1:KL] := 0` (40_vpcmpb_vpcmpub.md R74). -/
def clearUpper (d : Mask) (kl : Nat) : Nat → Mask
  | 0 => d
  | n + 1 => if kl ≤ n then setMaskBit (clearUpper d kl n) n Bool.false else clearUpper d kl n

/-- The page's Operation on a destination that held `d` (40_vpcmpb_vpcmpub.md R72, R74). -/
def vpcmpByLoop (sg : Signedness) (kl : Nat) (p : Predicate) (mask : Option Mask) (a b : Vec) (d : Mask) : Mask :=
  clearUpper (laneLoop sg p mask a b d kl) kl Config.maxKl

end Sys2Proof.Machine
end

