-- ==== Sys2Proof/Machine/Ops.lean ====
section
/-! DEFINITION. The named operations over registers and memory (00_scope.md R11), the checks before an instruction's
effect (40_vpcmpb_vpcmpub.md R76), and the two ways a step stops (60_exceptions.md R99). -/

namespace Sys2Proof.Machine

/-! ### Stopping -/

/-- `raise` of 00_scope.md R11, the one way an exception is taken: the step ends in a fault outcome and no state is
written, no handler runs (60_exceptions.md R101). No return from an exception exists (60_exceptions.md R104). -/
def raise (f : Fault) : Host.Outcome State Fault Refusal := .fault f

/-- `refuse` of 00_scope.md R11: the model gives the bytes, the mode or the state no meaning (60_exceptions.md R102). -/
def refuse (r : Refusal) : Host.Outcome State Fault Refusal := .refused r

/-! ### Registers -/

/-- `k[n]`, a read of a mask register (00_scope.md R11). -/
def State.kreg (s : State) (n : KReg) : Mask := s.k[n]

/-- `v[n]`, a read of a vector register (00_scope.md R11). -/
def State.vreg (s : State) (n : VReg) : Vec := s.v[n]

/-- `x[n]`, a read of a general register (00_scope.md R11). -/
def State.xreg (s : State) (n : GReg) : Word := s.x[n]

/-- `k[n] <- m`, a write of all 64 bits of a mask register (00_scope.md R11). -/
def State.setK (s : State) (n : KReg) (m : Mask) : State := { s with k := s.k.set n m }

/-- `pc <- t` (00_scope.md R11). -/
def State.setPc (s : State) (t : Addr) : State := { s with pc := t }

/-! ### Memory -/

/-- The byte at an address: the listed one, else what an unlisted address reads as. -/
def Memory.readByte : Memory → Nat → Byte
  | [], _ => Config.unlistedByte
  | (a, b) :: rest, n => if a = n then b else Memory.readByte rest n

/-- A write of one byte that keeps the canonical form. -/
def Memory.writeByte : Memory → Nat → Byte → Memory
  | [], n, v => if v = Config.unlistedByte then [] else [(n, v)]
  | (a, b) :: rest, n, v =>
    if n < a then (if v = Config.unlistedByte then (a, b) :: rest else (n, v) :: (a, b) :: rest)
    else if n = a then (if v = Config.unlistedByte then rest else (n, v) :: rest)
    else (a, b) :: Memory.writeByte rest n v

/-- The byte at a 64-bit address. -/
def Memory.load (m : Memory) (a : Addr) : Byte := Memory.readByte m a.toNat

/-- Bytes stored at rising addresses from `a`, wrapping modulo `2^64` (20_memory.md R30). -/
def Memory.storeBytes : Memory → Addr → List Byte → Memory
  | m, _, [] => m
  | m, a, b :: rest => Memory.storeBytes (Memory.writeByte m a.toNat b) (a + 1) rest

/-- The `n` bytes at `a .. a+n-1` (addresses modulo `2^64`) as one number, the byte at `a` in bits 7:0 (20_memory.md R31,
R32, D9), in a 512-bit container with zeros above. -/
def Memory.loadBytes (m : Memory) (a : Addr) : Nat → Vec
  | 0 => 0
  | n + 1 => Memory.loadBytes m a n ||| (m.load (a + BitVec.ofNat 64 n)).setWidth 512 <<< (8 * n)

/-- Whether a window holds an address. -/
def Window.holds (w : Window) (a : Addr) : Bool := decide (w.base ≤ a.toNat) && decide (a.toNat < w.base + w.size)

/-- `MemAdmit(a, 1)` (20_memory.md R31, R37). -/
def State.memAdmit (s : State) (a : Addr) : Bool := s.launch.admitted.any fun w => w.holds a

/-- Whether `MemAdmit` permits every byte of `addr .. addr+n-1`, addresses modulo `2^64` (20_memory.md R31). -/
def State.memAdmitAll (s : State) (addr : Addr) (n : Nat) : Bool :=
  (List.range n).all fun t => s.memAdmit (addr + BitVec.ofNat 64 t)

/-- `MemRead(addr, n)` (20_memory.md R31): the value, or a memory fault that records `pc`, `addr` and `n`
(60_exceptions.md R98, R99). Every byte is asked for, whatever the writemask (20_memory.md R38). -/
def memRead (s : State) (addr : Addr) (n : Nat) : Except Fault Vec :=
  if s.memAdmitAll addr n then .ok (s.mem.loadBytes addr n) else .error (.memFault s.pc addr n)

/-- `MemWrite(addr, n, v)`: the low `n` bytes of `v` are stored, the lowest at `addr`, addresses modulo `2^64`, and
`MemAdmit` is not asked. DESIGN CHOICE (entry 25), unsafe for a use as a program's store: 00_scope.md R11 names the
primitive and gives it no meaning, and states `MemAdmit` for reads only. No instruction uses it. -/
def memWrite (s : State) (addr : Addr) (n : Nat) (v : Vec) : State :=
  { s with mem := s.mem.storeBytes addr ((List.range n).map fun t => v.extractLsb' (8 * t) 8) }

/-! ### Checks before the effect -/

/-- The required XCR0 bits, 1, 2, 5, 6 and 7 (60_exceptions.md R97). -/
def Launch.xcr0Enabled (l : Launch) : Bool :=
  l.xcr0Sse && l.xcr0Avx && l.xcr0Opmask && l.xcr0ZmmHi256 && l.xcr0Hi16Zmm

/-- `Avx512Enabled` (60_exceptions.md R97): the operating system has enabled the vector and mask state and no
lazy-state trap is armed. -/
def Launch.avx512Enabled (l : Launch) : Bool := l.osxsave && l.xcr0Enabled && !l.ts

/-- The feature flags of the row are set: AVX512BW for every form, AVX512VL too below 512 bits (60_exceptions.md R96). -/
def Launch.hasFeatures (l : Launch) (vl : VLen) : Bool := l.avx512bw && (l.avx512vl || vl == .v512)

/-- The checks between decoding and operand fetch, in the order of 40_vpcmpb_vpcmpub.md R76: `none` is "go on". The two
refusals stand first, with the decoder's (DESIGN CHOICE, entry 11, safe). That `OSXSAVE` or an XCR0 bit clear gives
`InvalidOpcode`, and otherwise `TS` set gives `DeviceNotAvailable`, is DEDUCED (entry 9) from 60_exceptions.md R97, R100. -/
def gate (vl : VLen) (len : Nat) (s : State) : Option (Host.Outcome State Fault Refusal) :=
  if s.launch.mode ≠ .bits64 then some (refuse (.not64BitMode s.pc))
  else if 2 ^ 64 ≤ s.pc.toNat + len then some (refuse (.ipWrap s.pc))
  else if !s.launch.hasFeatures vl then some (raise (.invalidOpcode s.pc))
  else if !(s.launch.osxsave && s.launch.xcr0Enabled) then some (raise (.invalidOpcode s.pc))
  else if s.launch.ts then some (raise (.deviceNotAvailable s.pc))
  else none

/-- The completion of an instruction (40_vpcmpb_vpcmpub.md R75): the destination mask register and `pc` are written,
nothing else. -/
def complete (kd : KReg) (dest : Mask) (len : Nat) (s : State) : Host.Outcome State Fault Refusal :=
  .next ((s.setK kd dest).setPc (s.pc + BitVec.ofNat 64 len))

/-! ### Fetch -/

/-- The `n` bytes from `a` on, addresses modulo `2^64`. -/
def Memory.bytesFrom (m : Memory) (a : Addr) : Nat → List Byte
  | 0 => []
  | n + 1 => m.load a :: Memory.bytesFrom m (a + 1) n

/-- The bytes at `pc`, as many as the longest instruction has (20_memory.md R30; 30_encoding.md R59). `MemAdmit` is a
predicate on data reads and is not asked: DEDUCED (entry 12), unsafe. -/
def fetchWindow (s : State) : List Byte := s.mem.bytesFrom s.pc Config.maxLength

/-- `decode(bytes at pc)` (40_vpcmpb_vpcmpub.md R76, step 1), under the launch's policy for the reserved immediate bits. -/
def fetchDecode (s : State) : Except DecodeReason Instr :=
  match decode s.launch.immPolicy (fetchWindow s) with
  | .ok (i, _) => .ok i
  | .error r => .error r

/-- `s` with the given bytes stored from `pc` on: the load of program bytes that the spec leaves to the host
(70_reset_and_hazards.md R116). -/
def placeAtPc (s : State) (bytes : List Byte) : State := { s with mem := s.mem.storeBytes s.pc bytes }

end Sys2Proof.Machine
end

