-- ==== Sys2Proof/Machine/Operands.lean ====
section
/-! DEFINITION. The operand forms: the effective address of every addressing mode (30_encoding.md R56, R57) and the
operand fetch (40_vpcmpb_vpcmpub.md R71). -/

namespace Sys2Proof.Machine

/-- The displacement as a 64-bit number: none is 0, one byte is sign-extended and multiplied by `VL/8`, four bytes are
sign-extended (30_encoding.md R56, R57). -/
def dispValue (vl : VLen) : Disp → Addr
  | .none => 0
  | .d8 d => d.signExtend 64 * BitVec.ofNat 64 vl.bytes
  | .d32 d => d.signExtend 64

/-- The index term `x[X*8 + idx] * 2^scale`, or 0 where there is no index (30_encoding.md R56). -/
def indexTerm (i : Index) (s : State) : Addr :=
  match i.reg with
  | none => 0
  | some g => s.xreg g <<< i.scale.toNat

/-- `EA` of 30_encoding.md R56, modulo `2^64`; `len` is the length of the whole instruction, which the
instruction-pointer-relative form counts from. -/
def effAddr (vl : VLen) (len : Nat) (m : MemOperand) (s : State) : Addr :=
  match m with
  | .ripRel d => s.pc + BitVec.ofNat 64 len + d.signExtend 64
  | .base b disp => s.xreg b + dispValue vl disp
  | .sib b index disp => s.xreg b + indexTerm index s + dispValue vl disp
  | .sibNoBase index d => indexTerm index s + d.signExtend 64

/-- Bits `VL-1:0` of a vector register (10_state.md R17), in a 512-bit container with zeros above. -/
def lowBits (vl : VLen) (a : Vec) : Vec := (a.setWidth vl.bits).setWidth 512

/-- `SRC1 = v[vs1][VL-1:0]` (30_encoding.md R54, 40_vpcmpb_vpcmpub.md R71). -/
def fetchSrc1 (vl : VLen) (vs1 : VReg) (s : State) : Vec := lowBits vl (s.vreg vs1)

/-- `SRC2`: `v[vs2][VL-1:0]`, or `MemRead(EA, VL/8)` (30_encoding.md R53, R56, 40_vpcmpb_vpcmpub.md R71). -/
def fetchSrc2 (vl : VLen) (src2 : Src2) (s : State) : Except Fault Vec :=
  match src2 with
  | .reg n => .ok (lowBits vl (s.vreg n))
  | .mem m => memRead s (effAddr vl src2.instrLength m s) vl.bytes

/-- `K2`: the writemask's value, `none` where the instruction has no writemask and no mask register is read
(40_vpcmpb_vpcmpub.md R71). -/
def fetchMask (kw : Option KReg) (s : State) : Option Mask := kw.map s.kreg

end Sys2Proof.Machine
end

