-- ==== Sys2Proof/Machine/Vpcmp.lean ====
section
/-! DEFINITION. The meaning of the six forms (40_vpcmpb_vpcmpub.md R77 to R82), each one line over the shared body. -/

namespace Sys2Proof.Machine

/-- The body every form shares (40_vpcmpb_vpcmpub.md R76, steps 2 to 6): the checks, the operand fetch, the comparison,
the write of the destination and the advance of `pc`. All operands are read before the destination is written (R71). -/
def compareInto (sg : Signedness) (vl : VLen) (o : Operands) (s : State) : Host.Outcome State Fault Refusal :=
  match gate vl o.src2.instrLength s with
  | some stop => stop
  | none =>
    match fetchSrc2 vl o.src2 s with
    | .error f => raise f
    | .ok b =>
      complete o.kd
        (vpcmp sg vl.kl (predicateOfImm o.imm8) (fetchMask o.kw s) (fetchSrc1 vl o.vs1 s) b)
        o.src2.instrLength s

/-- `VPCMPB k1 {k2}, xmm2, xmm3/m128, imm8` (40_vpcmpb_vpcmpub.md R77). -/
def execVpcmpb128 (o : Operands) (s : State) : Host.Outcome State Fault Refusal := compareInto .signed .v128 o s

/-- `VPCMPB k1 {k2}, ymm2, ymm3/m256, imm8` (40_vpcmpb_vpcmpub.md R78). -/
def execVpcmpb256 (o : Operands) (s : State) : Host.Outcome State Fault Refusal := compareInto .signed .v256 o s

/-- `VPCMPB k1 {k2}, zmm2, zmm3/m512, imm8` (40_vpcmpb_vpcmpub.md R79). -/
def execVpcmpb512 (o : Operands) (s : State) : Host.Outcome State Fault Refusal := compareInto .signed .v512 o s

/-- `VPCMPUB k1 {k2}, xmm2, xmm3/m128, imm8` (40_vpcmpb_vpcmpub.md R80). -/
def execVpcmpub128 (o : Operands) (s : State) : Host.Outcome State Fault Refusal := compareInto .unsigned .v128 o s

/-- `VPCMPUB k1 {k2}, ymm2, ymm3/m256, imm8` (40_vpcmpb_vpcmpub.md R81). -/
def execVpcmpub256 (o : Operands) (s : State) : Host.Outcome State Fault Refusal := compareInto .unsigned .v256 o s

/-- `VPCMPUB k1 {k2}, zmm2, zmm3/m512, imm8` (40_vpcmpb_vpcmpub.md R82). -/
def execVpcmpub512 (o : Operands) (s : State) : Host.Outcome State Fault Refusal := compareInto .unsigned .v512 o s

end Sys2Proof.Machine
end

