-- ==== Sys2Proof/Machine/Dispatch.lean ====
section
/-! DEFINITION. One arm per constructor of `Instr`. -/

namespace Sys2Proof.Machine

def exec (i : Instr) (s : State) : Host.Outcome State Fault Refusal :=
  match i with
  | .vpcmpb128 o => Sys2Proof.Machine.execVpcmpb128 o s
  | .vpcmpb256 o => Sys2Proof.Machine.execVpcmpb256 o s
  | .vpcmpb512 o => Sys2Proof.Machine.execVpcmpb512 o s
  | .vpcmpub128 o => Sys2Proof.Machine.execVpcmpub128 o s
  | .vpcmpub256 o => Sys2Proof.Machine.execVpcmpub256 o s
  | .vpcmpub512 o => Sys2Proof.Machine.execVpcmpub512 o s

end Sys2Proof.Machine
end

