-- ==== Sys2Proof/Machine/Step.lean ====
section
/-! DEFINITION. One step of the machine (40_vpcmpb_vpcmpub.md R76): fetch and decode at `pc`, then the meaning of the
instruction, which moves `pc` itself. -/

namespace Sys2Proof.Machine

/-- One step. A mode other than 64-bit mode is refused before its bytes are given any reading (30_encoding.md R63). -/
def step (s : State) : Host.Outcome State Fault Refusal :=
  if s.launch.mode ≠ .bits64 then refuse (.not64BitMode s.pc)
  else
    match fetchDecode s with
    | .ok i => exec i s
    | .error r => refuse (.decode r s.pc)

/-- `s` with the instruction of a table word stored at `pc`, where `step` fetches next (entry 13). -/
def State.withFetchWord (s : State) (nbits w : Nat) : State := placeAtPc s (wordBytes nbits w)

end Sys2Proof.Machine
end

