-- ==== Sys2Proof/Machine/Assembly.lean ====
section
/-! DEFINITION. The assembler level: syntax (30_encoding.md R64), the pseudo-ops of Table 5-21 (R65) and the compiler
intrinsics (R66). The step does not use this file; an assembly line means the instruction it expands to. -/

namespace Sys2Proof.Machine

/-! ### Pseudo-ops -/

/-- The conditions of Table 5-21 (30_encoding.md R65, C2). -/
inductive PseudoCond where
  | eq
  | lt
  | le
  | neq
  | nlt
  | nle
deriving DecidableEq, Repr

/-- The immediate a pseudo-op stands for (30_encoding.md R65). -/
def PseudoCond.imm8 : PseudoCond → Byte
  | .eq => 0
  | .lt => 1
  | .le => 2
  | .neq => 4
  | .nlt => 5
  | .nle => 6

/-- A mnemonic: the real instruction's or a pseudo-op's. -/
inductive Mnemonic where
  | real (sg : Signedness)
  | pseudo (c : PseudoCond) (sg : Signedness)
deriving DecidableEq, Repr

/-- The element suffix that `*` stands for in Table 5-21 (30_encoding.md R65). -/
def suffixText : Signedness → String
  | .signed => "B"
  | .unsigned => "UB"

/-- The condition's letters in a pseudo-op's name (30_encoding.md R65, C2). -/
def PseudoCond.text : PseudoCond → String
  | .eq => "EQ"
  | .lt => "LT"
  | .le => "LE"
  | .neq => "NEQ"
  | .nlt => "NLT"
  | .nle => "NLE"

/-- The mnemonic as text (30_encoding.md R64, R65). -/
def Mnemonic.text : Mnemonic → String
  | .real sg => "VPCMP" ++ suffixText sg
  | .pseudo c sg => "VPCMP" ++ c.text ++ suffixText sg

/-! ### Assembly lines -/

/-- `MNEMONIC k1 {k2}, src1, src2, imm8` (30_encoding.md R64); `cls` is the register class of the sources, which selects
the form; a pseudo-op has no immediate. -/
structure AsmLine where
  mnemonic : Mnemonic
  dest : KReg
  mask : Option KReg
  cls : VLen
  src1 : VReg
  src2 : Src2
  imm8 : Option Byte
deriving DecidableEq, Repr

/-- The instruction a line stands for. A pseudo-op has the three register operands that Table 5-21 shows; whether it
takes a writemask or a memory operand the spec does not say (91_not_in_source.md N9), and such a line has no
expansion here: DESIGN CHOICE (entry 22), safe. A line under the real mnemonic stands for the instruction with the
operands written in it, also where no encoding can spell them (a writemask `k0`, an index `rsp`): DESIGN CHOICE
(entry 27), unsafe for a claim about such a line, since 30_encoding.md R64 does not say what it stands for. The
instruction is then not `wellFormed`, and no bytes decode to it. -/
def AsmLine.expand (l : AsmLine) : Option Instr :=
  let operands := fun imm8 : Byte =>
    ({ kd := l.dest, kw := l.mask, vs1 := l.src1, src2 := l.src2, imm8 := imm8 } : Operands)
  match l.mnemonic, l.imm8 with
  | .real sg, some imm8 => some (Instr.ofForm sg l.cls (operands imm8))
  | .pseudo c sg, none =>
    match l.mask, l.src2 with
    | none, .reg _ => some (Instr.ofForm sg l.cls (operands c.imm8))
    | _, _ => none
  | _, _ => none

/-- The line of an instruction under its real mnemonic. -/
def lineOf (i : Instr) : AsmLine where
  mnemonic := .real i.signedness
  dest := i.operands.kd
  mask := i.operands.kw
  cls := i.vlen
  src1 := i.operands.vs1
  src2 := i.operands.src2
  imm8 := some i.operands.imm8

/-! ### Text -/

/-- `k0` to `k7`. -/
def kText (n : KReg) : String := "k" ++ Nat.repr n.val

/-- The writemask in its braces, directly after the destination (30_encoding.md R64). -/
def maskText : Option KReg → String
  | none => ""
  | some n => " " ++ String.singleton (Char.ofNat 0x7B) ++ kText n ++ String.singleton (Char.ofNat 0x7D)

/-- `xmm`, `ymm` or `zmm` with its number (00_scope.md R13). -/
def vecText (cls : VLen) (n : VReg) : String :=
  (match cls with
    | .v128 => "xmm"
    | .v256 => "ymm"
    | .v512 => "zmm") ++ Nat.repr n.val

/-- The names of the general registers in lower case, in the order of 10_state.md R22. -/
def gregNames : Vector String 16 :=
  #v["rax", "rcx", "rdx", "rbx", "rsp", "rbp", "rsi", "rdi", "r8", "r9", "r10", "r11", "r12", "r13", "r14", "r15"]

/-- The name of a general register (10_state.md R22). -/
def gregText (g : GReg) : String := gregNames[g]

/-- A displacement as signed decimal; nothing for 0. The spelling of memory operands is the spec's, from general
knowledge and cosmetic (30_encoding.md R64, G17); that displacements are decimal is a DESIGN CHOICE (entry 23), safe. -/
def dispText (d : Int) : String :=
  if d = 0 then "" else if d < 0 then "-" ++ Nat.repr d.natAbs else "+" ++ Nat.repr d.natAbs

/-- The displacement an addressing mode adds, as an integer (30_encoding.md R56, R57). -/
def dispInt (vl : VLen) : Disp → Int
  | .none => 0
  | .d8 d => d.toInt * vl.bytes
  | .d32 d => d.toInt

/-- `index*scale`, or nothing. -/
def indexText (i : Index) : Option String :=
  i.reg.map fun g => gregText g ++ "*" ++ Nat.repr (2 ^ i.scale.toNat)

/-- A memory operand, `[base + index*scale + disp]` without spaces (30_encoding.md R64). -/
def memText (vl : VLen) : MemOperand → String
  | .ripRel d => "[rip" ++ dispText d.toInt ++ "]"
  | .base b disp => "[" ++ gregText b ++ dispText (dispInt vl disp) ++ "]"
  | .sib b index disp =>
    "[" ++ gregText b ++ ((indexText index).map ("+" ++ ·)).getD "" ++ dispText (dispInt vl disp) ++ "]"
  | .sibNoBase index d =>
    match indexText index with
    | none => "[" ++ (if d.toInt < 0 then "-" else "") ++ Nat.repr d.toInt.natAbs ++ "]"
    | some t => "[" ++ t ++ dispText d.toInt ++ "]"

/-- A line of assembly as text (30_encoding.md R64). -/
def AsmLine.text (l : AsmLine) : String :=
  l.mnemonic.text ++ " " ++ kText l.dest ++ maskText l.mask ++ ", " ++ vecText l.cls l.src1 ++ ", "
    ++ (match l.src2 with
      | .reg n => vecText l.cls n
      | .mem m => memText l.cls m)
    ++ (match l.imm8 with
      | none => ""
      | some b => ", " ++ Nat.repr b.toNat)

/-! ### Intrinsics -/

/-- The six names of the fixed-predicate functions, `[eq|ge|gt|le|lt|neq]` (30_encoding.md R66). -/
inductive IntrinsicCond where
  | eq
  | ge
  | gt
  | le
  | lt
  | neq
deriving DecidableEq, Repr

/-- The predicate number a name stands for (30_encoding.md R66, D28). -/
def IntrinsicCond.imm8 : IntrinsicCond → Byte
  | .eq => 0
  | .lt => 1
  | .le => 2
  | .neq => 4
  | .ge => 5
  | .gt => 6

/-- The name's letters. -/
def IntrinsicCond.text : IntrinsicCond → String
  | .eq => "eq"
  | .ge => "ge"
  | .gt => "gt"
  | .le => "le"
  | .lt => "lt"
  | .neq => "neq"

/-- One function of the prototypes of 30_encoding.md R66; `cond` is `none` for the general `cmp` functions. -/
structure Intrinsic where
  sg : Signedness
  vl : VLen
  masked : Bool
  cond : Option IntrinsicCond
deriving DecidableEq, Repr

/-- The C name of the function (30_encoding.md R66). -/
def Intrinsic.name (f : Intrinsic) : String :=
  (match f.vl with
    | .v128 => "_mm"
    | .v256 => "_mm256"
    | .v512 => "_mm512")
  ++ (if f.masked then "_mask" else "") ++ "_cmp"
  ++ (match f.cond with
    | none => ""
    | some c => c.text)
  ++ (match f.sg with
    | .signed => "_epi8_mask"
    | .unsigned => "_epu8_mask")

/-- The immediate of the instruction a function stands for: the name's predicate, or the argument `cmp`
(30_encoding.md R66, C7, D28). DESIGN CHOICE (entry 26), unsafe where a reserved bit is set: `cmp` is any byte, since
the legal values of `int cmp` are not in the spec's source (91_not_in_source.md N17). -/
def Intrinsic.imm8 (f : Intrinsic) (cmp : Byte) : Byte :=
  match f.cond with
  | none => cmp
  | some c => c.imm8

/-- The value a function returns: `a` is the first source, `b` the second, `m` the writemask, the result has exactly
`KL` bits (30_encoding.md R66, D28). An unmasked function ignores `m`, a fixed-predicate one `cmp`. DESIGN CHOICE
(entry 26), unsafe where a reserved bit is set: only `cmp[2:0]` counts, also with a reserved bit set, whatever
`IMM_RESERVED_POLICY` is. -/
def Intrinsic.value (f : Intrinsic) (m : BitVec f.vl.kl) (a b : BitVec f.vl.bits) (cmp : Byte) : BitVec f.vl.kl :=
  (vpcmp f.sg f.vl.kl (predicateOfImm (f.imm8 cmp)) (if f.masked then some (m.setWidth 64) else none)
    (a.setWidth 512) (b.setWidth 512)).setWidth f.vl.kl

end Sys2Proof.Machine
end

