-- ==== Sys2Proof/Safety.lean ====
section
/-! DEFINITION. What a run of the machine is held to: the launch premises (70_reset_and_hazards.md R111), when an
instruction executes, and the end of a run (R115). -/

namespace Sys2Proof.Machine

/-- The premises of 70_reset_and_hazards.md R111 (1) to (3) for the forms of one vector length, bit by bit: 64-bit mode,
the row's feature flags (60_exceptions.md R96), `CR4.OSXSAVE` and the XCR0 bits set and `CR0.TS` clear (R97). -/
def Launch.premises (l : Launch) (vl : VLen) : Prop :=
  l.mode = .bits64 ∧ l.avx512bw = true ∧ (vl = .v512 ∨ l.avx512vl = true) ∧ l.osxsave = true ∧
    (l.xcr0Sse = true ∧ l.xcr0Avx = true ∧ l.xcr0Opmask = true ∧ l.xcr0ZmmHi256 = true ∧ l.xcr0Hi16Zmm = true) ∧
    l.ts = false

/-- The premises for all six forms. -/
def Launch.allPremises (l : Launch) : Prop := ∀ vl, l.premises vl

/-- An instruction of length `len` and vector length `vl` passes every check that does not concern its memory operand:
the launch premises hold (70_reset_and_hazards.md R111) and `pc` does not pass the top of the address space (10_state.md
R23). -/
def Ready (vl : VLen) (len : Nat) (s : State) : Prop := s.launch.premises vl ∧ s.pc.toNat + len < 2 ^ 64

/-- `MemAdmit` permits every byte of the memory operand, if there is one (20_memory.md R31). -/
def Src2Admitted (vl : VLen) (src2 : Src2) (s : State) : Prop :=
  ∀ m, src2 = .mem m → ∀ t < vl.bytes,
    s.memAdmit (effAddr vl src2.instrLength m s + BitVec.ofNat 64 t) = true

/-- The invariant of a launch: memory is in its canonical form, the premises of 70_reset_and_hazards.md R111 hold for
every form, and a processor with AVX512BW has AVX512F (10_state.md R26). -/
def LaunchInv (s : State) : Prop :=
  s.mem.wf = true ∧ s.launch.allPremises ∧ (s.launch.avx512bw = true → s.launch.avx512f = true)

/-- Memory holds the bytes from address `a` on, addresses modulo `2^64`. -/
def holdsBytes (m : Memory) (a : Addr) (bs : List Byte) : Prop :=
  ∀ t (h : t < bs.length), m.load (a + BitVec.ofNat 64 t) = bs[t]

/-- The program is placed at the launch address `base`, each byte at an address of its own, and the run starts there
(70_reset_and_hazards.md R115, R110). -/
def Launched (base : Addr) (program : List Byte) (s : State) : Prop :=
  s.pc = base ∧ program.length ≤ 2 ^ 64 ∧ holdsBytes s.mem base program

/-- `pc` stands at the end of a program of `length` bytes at `base` (70_reset_and_hazards.md R115). -/
def FinalAt (base : Addr) (length : Nat) (s : State) : Prop := s.pc = base + BitVec.ofNat 64 length

/-- The run from `s` ends in `t` after `n` completed steps, at least one: `t` is the first state after a completed step
whose `pc` stands at the program's end (70_reset_and_hazards.md R115). -/
def EndsAfter (base : Addr) (length n : Nat) (s t : State) : Prop :=
  0 < n ∧ Sys2Proof.core.run n s = .next t ∧ FinalAt base length t ∧
    ∀ m u, 0 < m → m < n → Sys2Proof.core.run m s = .next u → ¬ FinalAt base length u

/-- A safe run: the program is launched in `s` and its run ends, with no step faulting or refused before
(70_reset_and_hazards.md R115). -/
def SafeRun (base : Addr) (program : List Byte) (s : State) : Prop :=
  Launched base program s ∧ ∃ n t, EndsAfter base program.length n s t

end Sys2Proof.Machine
end

