-- ==== Sys2Proof/Certificates/Slice0/Obligations.lean ====
section
/-! DEFINITION. The statements for the provers, and the few notions they are written with. The notions restate the
spec's tables on integers and single bits, apart from the definitions the machine computes with. -/

namespace Sys2Proof.Claims

open Sys2Proof.Machine

/-- The third column of 40_vpcmpb_vpcmpub.md R68: when `a OP b` holds for predicate number `pred`. -/
def relation (pred : Nat) (a b : Int) : Prop :=
  match pred with
  | 0 => a = b
  | 1 => a < b
  | 2 => a ≤ b
  | 3 => False
  | 4 => a ≠ b
  | 5 => b ≤ a
  | 6 => b < a
  | _ => True

/-- The number of the predicate, `imm8[2:0]` (30_encoding.md R58). -/
def predNumber (imm8 : Byte) : Nat := imm8.toNat % 8

/-- A byte as the signed or the unsigned integer it stands for (40_vpcmpb_vpcmpub.md R69, R70). -/
def number (sg : Signedness) (b : Byte) : Int :=
  match sg with
  | .signed => b.toInt
  | .unsigned => (b.toNat : Int)

/-- The vector width in bytes: the operand's size, the displacement factor and the number of elements
(00_scope.md R8, 30_encoding.md R57). -/
def width (vl : VLen) : Nat :=
  match vl with
  | .v128 => 16
  | .v256 => 32
  | .v512 => 64

/-- Element `j` of a vector register, bits `8j+7:8j`. -/
def element (a : Vec) (j : Nat) : Byte := BitVec.ofNat 8 (a.toNat / 2 ^ (8 * j))

/-- Element `j` of the second source: of the register, or the byte at `EA + j` (20_memory.md R33). -/
def secondElement (vl : VLen) (src2 : Src2) (s : State) (j : Nat) : Byte :=
  match src2 with
  | .reg n => element (s.vreg n) j
  | .mem m => s.mem.load (effAddr vl src2.instrLength m s + BitVec.ofNat 64 j)

/-- The lane takes part: there is no writemask, or its bit `j` is 1. -/
def laneEnabled (kw : Option KReg) (s : State) (j : Nat) : Prop := ∀ n, kw = some n → (s.kreg n).getLsbD j = true

/-- Bit `j` of the destination in `t` for `j` below the element count: 1 exactly where the lane of `s` is enabled and its
comparison holds (40_vpcmpb_vpcmpub.md R72). -/
def laneResults (sg : Signedness) (vl : VLen) (o : Operands) (s t : State) : Prop :=
  ∀ j < width vl, ((t.kreg o.kd).getLsbD j = true ↔
    laneEnabled o.kw s j ∧
      relation (predNumber o.imm8) (number sg (element (s.vreg o.vs1) j)) (number sg (secondElement vl o.src2 s j)))

/-- Bits at and above the element count are 0 (40_vpcmpb_vpcmpub.md R74). -/
def upperZero (vl : VLen) (o : Operands) (t : State) : Prop :=
  ∀ j, width vl ≤ j → (t.kreg o.kd).getLsbD j = false

/-- All state but the destination mask register and `pc` is as before (40_vpcmpb_vpcmpub.md R75). -/
def othersUnchanged (kd : KReg) (s t : State) : Prop :=
  (∀ r, r ≠ kd → t.kreg r = s.kreg r) ∧ (∀ r, t.vreg r = s.vreg r) ∧ (∀ r, t.xreg r = s.xreg r) ∧
    t.rflags = s.rflags ∧ t.mxcsr = s.mxcsr ∧ (∀ a, t.mem.load a = s.mem.load a) ∧ t.launch = s.launch

/-- The instruction runs to completion from `s` with the row's effect. -/
def completesAs (i : Instr) (sg : Signedness) (vl : VLen) (o : Operands) (s : State) : Prop :=
  ∃ t, exec i s = .next t ∧ laneResults sg vl o s t ∧ upperZero vl o t ∧ othersUnchanged o.kd s t ∧
    t.pc = s.pc + BitVec.ofNat 64 o.src2.instrLength

/-- The instruction with the same operands but no writemask. -/
def withoutMask (i : Instr) : Instr := Instr.ofForm i.signedness i.vlen { i.operands with kw := none }

/-- The instruction with another immediate. -/
def withImm8 (i : Instr) (imm8 : Byte) : Instr := Instr.ofForm i.signedness i.vlen { i.operands with imm8 := imm8 }

/-- The number of SIB and displacement bytes that ModRM and SIB announce (30_encoding.md R59). -/
def extraFromBytes (modrm sib : Byte) : Nat :=
  let md := modrm.toNat / 64
  let rm := modrm.toNat % 8
  let s := if md ≠ 3 ∧ rm = 4 then 1 else 0
  let d :=
    if md = 3 then 0
    else if (md = 0 ∧ rm = 5) ∨ (md = 0 ∧ rm = 4 ∧ sib.toNat % 8 = 5) ∨ md = 2 then 4
    else if md = 1 then 1 else 0
  s + d

/-- Bytes 0 to 4 as one 40-bit number, byte 0 most significant (30_encoding.md R60). -/
def firstFive (bs : List Byte) : Nat := (bs.take 5).foldl (fun n b => n * 256 + b.toNat) 0

/-- The match value of a row (30_encoding.md R60). -/
def matchOf : Instr → Nat
  | .vpcmpb128 _ => 0x629305003F
  | .vpcmpb256 _ => 0x629305203F
  | .vpcmpb512 _ => 0x629305403F
  | .vpcmpub128 _ => 0x629305003E
  | .vpcmpub256 _ => 0x629305203E
  | .vpcmpub512 _ => 0x629305403E

/-- A displacement as an integer (30_encoding.md R56, R57). -/
def dispNumber (vl : VLen) (d : Disp) : Int :=
  match d with
  | .none => 0
  | .d8 b => b.toInt * width vl
  | .d32 b => b.toInt

/-- The index term as a natural number (30_encoding.md R56). -/
def indexNumber (i : Index) (s : State) : Nat :=
  match i.reg with
  | none => 0
  | some g => (s.xreg g).toNat * 2 ^ i.scale.toNat

/-- The relation of a pseudo-op's condition (30_encoding.md R65). -/
def pseudoRelation (c : PseudoCond) (a b : Int) : Prop :=
  match c with
  | .eq => a = b
  | .lt => a < b
  | .le => a ≤ b
  | .neq => a ≠ b
  | .nlt => ¬ a < b
  | .nle => ¬ a ≤ b

/-- The relation that an intrinsic's name spells (30_encoding.md R66). -/
def namedRelation (c : IntrinsicCond) (a b : Int) : Prop :=
  match c with
  | .eq => a = b
  | .ge => b ≤ a
  | .gt => b < a
  | .le => a ≤ b
  | .lt => a < b
  | .neq => a ≠ b

/-- Every byte of a vector has its bit 7 flipped by `xor` with this value (40_vpcmpb_vpcmpub.md R90). -/
def signBits : Vec := BitVec.ofNat 512 ((List.range 64).foldl (fun n j => n + 0x80 * 2 ^ (8 * j)) 0)

/-- The bytes of a straight-line program (70_reset_and_hazards.md R115). -/
def programBytes (is : List Instr) : List Byte := is.flatMap encode

end Sys2Proof.Claims

section

open Sys2Proof Sys2Proof.Machine Sys2Proof.Claims

/-! ### Encoding -/

/-- 30_encoding.md R47 to R60, R67: decoding the bytes of a well-formed instruction, whatever follows them, gives that
instruction and what follows; every operand at every value the encoding admits, every addressing mode. -/
def Obligations.DecodeOfEncodeIsTheInstruction : Prop :=
  ∀ (policy : ImmPolicy) (i : Instr) (rest : List Byte), i.wellFormed = true →
    immAdmitted policy i.operands.imm8 = true → decode policy (encode i ++ rest) = .ok (i, rest)

/-- 30_encoding.md R61, R67: whatever the decoder accepts is the encoding of the well-formed instruction it answers (so
no bit of an accepted byte string is dropped, and no two byte strings spell one instruction); in particular the
writemask it answers is never k0 (10_state.md R19). -/
def Obligations.AcceptedBytesAreTheEncoding : Prop :=
  ∀ (policy : ImmPolicy) (bs : List Byte) (i : Instr) (rest : List Byte), decode policy bs = .ok (i, rest) →
    bs = encode i ++ rest ∧ i.wellFormed = true ∧ immAdmitted policy i.operands.imm8 = true

/-- 30_encoding.md R59: an encoding has 7 bytes in the register form and 7 to 12 otherwise, and the number can be told
from bytes 5 and 6 alone. -/
def Obligations.EncodingLengthFromModrmAndSib : Prop :=
  ∀ i : Instr, i.wellFormed = true →
    (∀ n, i.operands.src2 = .reg n → (encode i).length = 7) ∧ 7 ≤ (encode i).length ∧ (encode i).length ≤ 12 ∧
      ∀ (h5 : 5 < (encode i).length) (h6 : 6 < (encode i).length),
        (encode i).length = 7 + extraFromBytes (encode i)[5] (encode i)[6]

/-- 30_encoding.md R60: the first five bytes of whatever the decoder accepts match the row's 40-bit pattern under the
common mask. -/
def Obligations.AcceptedBytesMatchTheRowPattern : Prop :=
  ∀ (policy : ImmPolicy) (bs : List Byte) (i : Instr) (rest : List Byte), decode policy bs = .ok (i, rest) →
    firstFive bs &&& 0xFF9F87F0FF = matchOf i

/-- 95_test_vectors.md E1, E3, E4, E5, E7, E6: one word of each row decodes to the instruction listed there. -/
def Obligations.SpecWordsDecodeAsListed : Prop :=
  decode .refuse [0x62, 0xF3, 0x75, 0x48, 0x3F, 0xCA, 0x00] =
    .ok (.vpcmpb512 { kd := 1, kw := none, vs1 := 1, src2 := .reg 2, imm8 := 0 }, []) ∧
  decode .refuse [0x62, 0x93, 0x05, 0x47, 0x3E, 0xEE, 0x06] =
    .ok (.vpcmpub512 { kd := 5, kw := some 7, vs1 := 31, src2 := .reg 30, imm8 := 6 }, []) ∧
  decode .refuse [0x62, 0xF3, 0x5D, 0x0B, 0x3F, 0xD5, 0x01] =
    .ok (.vpcmpb128 { kd := 2, kw := some 3, vs1 := 4, src2 := .reg 5, imm8 := 1 }, []) ∧
  decode .refuse [0x62, 0xD3, 0x7D, 0x20, 0x3E, 0xF8, 0x02] =
    .ok (.vpcmpub256 { kd := 7, kw := none, vs1 := 16, src2 := .reg 8, imm8 := 2 }, []) ∧
  decode .refuse [0x62, 0xF3, 0x7D, 0x29, 0x3F, 0x4B, 0x02, 0x05] =
    .ok (.vpcmpb256 { kd := 1, kw := some 1, vs1 := 0, src2 := .mem (.base 3 (.d8 2)), imm8 := 5 }, []) ∧
  decode .refuse [0x62, 0xF3, 0x6D, 0x08, 0x3E, 0x18, 0x00] =
    .ok (.vpcmpub128 { kd := 3, kw := none, vs1 := 2, src2 := .mem (.base 0 .none), imm8 := 0 }, [])

/-- 30_encoding.md R61 b to h and j, R67: an encoding in which one fixed field of bytes 0 to 4 is changed is refused,
each field under its own reason. -/
def Obligations.ChangedFixedFieldIsRefusedByName : Prop :=
  ∀ (policy : ImmPolicy) (i : Instr) (rest : List Byte),
    let bs := encode i ++ rest
    (∀ b, b ≠ 0x62#8 → decode policy (bs.set 0 b) = .error .notThisInstruction) ∧
    (∀ v < 3, decode policy (bs.modify 1 fun b => (b &&& 0xFC#8) ||| BitVec.ofNat 8 v) =
      .error .notThisInstruction) ∧
    (∀ v < 4, v ≠ 1 → decode policy (bs.modify 2 fun b => (b &&& 0xFC#8) ||| BitVec.ofNat 8 v) =
      .error .notThisInstruction) ∧
    (∀ b, b ≠ 0x3E#8 → b ≠ 0x3F#8 → decode policy (bs.set 4 b) = .error .notThisInstruction) ∧
    decode policy (bs.modify 2 (· ||| 0x80#8)) = .error .w1OtherInstruction ∧
    (∀ v < 4, v ≠ 0 → decode policy (bs.modify 1 (· ||| BitVec.ofNat 8 (4 * v))) = .error .reservedPrefixBits) ∧
    decode policy (bs.modify 2 (· &&& 0xFB#8)) = .error .reservedPrefixBits ∧
    decode policy (bs.modify 1 (· &&& 0x7F#8)) = .error .maskRegExtension ∧
    decode policy (bs.modify 1 (· &&& 0xEF#8)) = .error .maskRegExtension ∧
    decode policy (bs.modify 3 (· ||| 0x80#8)) = .error .zSet ∧
    decode policy (bs.modify 3 (· ||| 0x10#8)) = .error .bSet ∧
    decode policy (bs.modify 3 (· ||| 0x60#8)) = .error .badVectorLength

/-- 30_encoding.md R61 i, R67: an accepted memory form in which an unused `X` (no SIB byte) or an unused `B` (no base
register) is flipped is refused as `unusedXorB`. -/
def Obligations.UnusedExtensionBitIsRefused : Prop :=
  ∀ (policy : ImmPolicy) (i : Instr) (rest : List Byte), i.wellFormed = true →
    let bs := encode i ++ rest
    (∀ d, i.operands.src2 = .mem (.ripRel d) →
      decode policy (bs.modify 1 (· ^^^ 0x40#8)) = .error .unusedXorB ∧
      decode policy (bs.modify 1 (· ^^^ 0x20#8)) = .error .unusedXorB) ∧
    (∀ b disp, i.operands.src2 = .mem (.base b disp) →
      decode policy (bs.modify 1 (· ^^^ 0x40#8)) = .error .unusedXorB) ∧
    (∀ index d, i.operands.src2 = .mem (.sibNoBase index d) →
      decode policy (bs.modify 1 (· ^^^ 0x20#8)) = .error .unusedXorB)

/-- 30_encoding.md R61 a (the spec's decision D5): with a reserved immediate bit set, the policy `refuse` refuses the
encoding, the policy `ignore` decodes it, and the instruction then does what it does with `imm8[2:0]` alone. -/
def Obligations.ReservedImmediateBitsFollowThePolicy : Prop :=
  ∀ (i : Instr) (rest : List Byte), i.wellFormed = true → 8 ≤ i.operands.imm8.toNat →
    decode .refuse (encode i ++ rest) = .error .reservedImmBits ∧
    decode .ignore (encode i ++ rest) = .ok (i, rest) ∧
    ∀ s, exec i s = exec (withImm8 i (i.operands.imm8 &&& 7#8)) s

/-! ### The step -/

/-- 40_vpcmpb_vpcmpub.md R76 (the spec's decision D21): when the bytes at `pc` decode to an instruction, the step is that
instruction's meaning; nothing is added around it, since the meaning itself moves `pc`. -/
def Obligations.StepRunsTheDecodedInstruction : Prop :=
  ∀ (s : State) (i : Instr) (rest : List Byte),
    decode s.launch.immPolicy (fetchWindow s) = .ok (i, rest) → step s = exec i s

/-- 30_encoding.md R47, 40_vpcmpb_vpcmpub.md R76: where memory holds an instruction's encoding from `pc` on, the step is
that instruction's meaning, whatever the bytes after it. -/
def Obligations.StepRunsTheEncodingAtPc : Prop :=
  ∀ (s : State) (i : Instr), i.wellFormed = true → immAdmitted s.launch.immPolicy i.operands.imm8 = true →
    holdsBytes s.mem s.pc (encode i) → step s = exec i s

/-- 60_exceptions.md R102, 30_encoding.md R63 (the spec's decision D1): a step is refused in any mode but 64-bit mode, and
in 64-bit mode where the decoder refuses the bytes at `pc`; the refusal holds the reason and `pc`. -/
def Obligations.StepRefusesOtherModesAndUndecodedBytes : Prop :=
  ∀ s : State,
    (s.launch.mode ≠ .bits64 → step s = .refused (.not64BitMode s.pc)) ∧
    (s.launch.mode = .bits64 → ∀ r, decode s.launch.immPolicy (fetchWindow s) = .error r →
      step s = .refused (.decode r s.pc))

/-- 60_exceptions.md R99: these are all the outcomes of a step and what each records. A memory fault comes only from a
memory form, with its effective address and size. The decoder's own reason for a byte string that ends early (the
model's choice, entry 18) never occurs. -/
def Obligations.StepOutcomesAreTheListedOnes : Prop :=
  ∀ s : State,
    (∃ t, step s = .next t) ∨
    (∃ r, r ≠ .truncated ∧ step s = .refused (.decode r s.pc)) ∨
    step s = .refused (.ipWrap s.pc) ∨
    step s = .refused (.not64BitMode s.pc) ∨
    step s = .fault (.invalidOpcode s.pc) ∨
    step s = .fault (.deviceNotAvailable s.pc) ∨
    ∃ i m, fetchDecode s = .ok i ∧ i.operands.src2 = .mem m ∧
      step s = .fault (.memFault s.pc (effAddr i.vlen i.length m s) (width i.vlen))

/-- The model's way to load a program (entry 13): a table word that the decoder reads, placed at `pc`, is what the next
step runs, in any state with canonical memory and the default policy. -/
def Obligations.PlacedWordIsTheNextInstruction : Prop :=
  ∀ (s : State) (nbits w : Nat) (i : Instr), s.mem.wf = true → s.launch.immPolicy = ImmPolicy.default →
    decodeTableWord nbits w = some i →
    step (s.withFetchWord nbits w) = exec i (s.withFetchWord nbits w)

/-! ### What the rows do -/

/-- 40_vpcmpb_vpcmpub.md R77, R78, R79: the three VPCMPB rows, in every operand form, complete in every state that
meets the launch premises, whose memory operand is admitted and whose `pc` does not pass the top of the address space
(the spec's decisions D12, D14, D19; the order of the checks is entry 11); the comparison is on signed bytes. -/
def Obligations.VpcmpbRowsCompleteWithSignedComparison : Prop :=
  ∀ (o : Operands) (s : State),
    (Ready .v128 o.src2.instrLength s → Src2Admitted .v128 o.src2 s →
      completesAs (.vpcmpb128 o) .signed .v128 o s) ∧
    (Ready .v256 o.src2.instrLength s → Src2Admitted .v256 o.src2 s →
      completesAs (.vpcmpb256 o) .signed .v256 o s) ∧
    (Ready .v512 o.src2.instrLength s → Src2Admitted .v512 o.src2 s →
      completesAs (.vpcmpb512 o) .signed .v512 o s)

/-- 40_vpcmpb_vpcmpub.md R80, R81, R82: the three VPCMPUB rows, as above; the comparison is on unsigned bytes. -/
def Obligations.VpcmpubRowsCompleteWithUnsignedComparison : Prop :=
  ∀ (o : Operands) (s : State),
    (Ready .v128 o.src2.instrLength s → Src2Admitted .v128 o.src2 s →
      completesAs (.vpcmpub128 o) .unsigned .v128 o s) ∧
    (Ready .v256 o.src2.instrLength s → Src2Admitted .v256 o.src2 s →
      completesAs (.vpcmpub256 o) .unsigned .v256 o s) ∧
    (Ready .v512 o.src2.instrLength s → Src2Admitted .v512 o.src2 s →
      completesAs (.vpcmpub512 o) .unsigned .v512 o s)

/-- 40_vpcmpb_vpcmpub.md R75: the write set. Whenever any of the six rows completes, the destination holds the result
(every lane, and zeros above), `pc` has moved past the instruction, and every other mask register, every vector and
general register, the flags registers, every byte of memory and the launch's parameters are as before. -/
def Obligations.CompletedInstructionWritesOnlyDestinationAndPc : Prop :=
  ∀ (i : Instr) (s t : State), exec i s = .next t →
    laneResults i.signedness i.vlen i.operands s t ∧ upperZero i.vlen i.operands t ∧
      t.pc = s.pc + BitVec.ofNat 64 i.length ∧ othersUnchanged i.operands.kd s t

/-- 40_vpcmpb_vpcmpub.md R72: a completed instruction leaves in its destination what the page's lane loop, run on the
destination's old value, leaves there; and, as the spec infers from the loop body, bit `j` of the loop's result depends only on element `j`
of each source and bit `j` of the writemask. -/
def Obligations.ResultIsThePagesLaneLoop : Prop :=
  (∀ (i : Instr) (s t : State), exec i s = .next t →
    ∃ b, fetchSrc2 i.vlen i.operands.src2 s = .ok b ∧
      t.kreg i.operands.kd =
        vpcmpByLoop i.signedness (width i.vlen) (predicateOfImm i.operands.imm8) (fetchMask i.operands.kw s)
          (fetchSrc1 i.vlen i.operands.vs1 s) b (s.kreg i.operands.kd)) ∧
  ∀ (sg : Signedness) (vl : VLen) (p : Predicate) (m m' : Option Mask) (a a' b b' : Vec) (d d' : Mask) (j : Nat),
    j < width vl → element a j = element a' j → element b j = element b' j →
    (m.all (fun x => x.getLsbD j) = m'.all fun x => x.getLsbD j) →
    (vpcmpByLoop sg (width vl) p m a b d).getLsbD j = (vpcmpByLoop sg (width vl) p m' a' b' d').getLsbD j

/-- 40_vpcmpb_vpcmpub.md R73: a masked-off result bit is 0 whatever the elements and whatever the destination held;
no accepted encoding has the bit that would choose another masking; and the elements of masked-off lanes do not affect
the result. -/
def Obligations.MaskedOffLanesAreZeroAndIgnored : Prop :=
  (∀ (i : Instr) (s t : State) (n : KReg) (j : Nat), exec i s = .next t → i.operands.kw = some n →
    (s.kreg n).getLsbD j = false → (t.kreg i.operands.kd).getLsbD j = false) ∧
  (∀ (policy : ImmPolicy) (bs : List Byte) (i : Instr) (rest : List Byte) (h : 3 < bs.length),
    decode policy bs = .ok (i, rest) → bs[3].getLsbD 7 = false) ∧
  (∀ (i : Instr) (s s' t t' : State), exec i s = .next t → exec i s' = .next t' → s'.k = s.k →
    (∀ j < width i.vlen, laneEnabled i.operands.kw s j →
      element (s'.vreg i.operands.vs1) j = element (s.vreg i.operands.vs1) j ∧
      secondElement i.vlen i.operands.src2 s' j = secondElement i.vlen i.operands.src2 s j) →
    t'.kreg i.operands.kd = t.kreg i.operands.kd)

/-- 40_vpcmpb_vpcmpub.md R74: bits 63:16 of the destination are 0 after the 128-bit rows and bits 63:32 after the 256-bit
rows (none are left to clear after the 512-bit rows); and the whole destination is overwritten: its old value does not
matter, unless it is the writemask. -/
def Obligations.UpperDestinationBitsAreZeroAndOldValueIsLost : Prop :=
  (∀ (o : Operands) (s t : State), (exec (.vpcmpb128 o) s = .next t ∨ exec (.vpcmpub128 o) s = .next t) →
    (t.kreg o.kd).toNat < 2 ^ 16) ∧
  (∀ (o : Operands) (s t : State), (exec (.vpcmpb256 o) s = .next t ∨ exec (.vpcmpub256 o) s = .next t) →
    (t.kreg o.kd).toNat < 2 ^ 32) ∧
  (∀ (i : Instr) (s t : State) (old : Mask), exec i s = .next t → i.operands.kw ≠ some i.operands.kd →
    exec i (s.setK i.operands.kd old) = .next t)

/-- 40_vpcmpb_vpcmpub.md R84 a to e, at the level of the six rows: (a) the destination may be the writemask, whose old
value then masks; (b) one register as both sources; (c) FALSE gives 0; (d) TRUE copies the low bits of the writemask,
or gives `2^KL - 1`; (e) an all-zero writemask gives 0. -/
def Obligations.CornerCasesOfTheRows : Prop :=
  ∀ (i : Instr) (s t : State), exec i s = .next t →
    (∀ j, i.operands.kw = some i.operands.kd → (t.kreg i.operands.kd).getLsbD j = true →
      (s.kreg i.operands.kd).getLsbD j = true) ∧
    (∀ j < width i.vlen, i.operands.src2 = .reg i.operands.vs1 →
      ((t.kreg i.operands.kd).getLsbD j = true ↔
        laneEnabled i.operands.kw s j ∧ predNumber i.operands.imm8 ∈ [0, 2, 5, 7])) ∧
    (predNumber i.operands.imm8 = 3 → t.kreg i.operands.kd = 0) ∧
    (predNumber i.operands.imm8 = 7 →
      (i.operands.kw = none → (t.kreg i.operands.kd).toNat = 2 ^ width i.vlen - 1) ∧
      ∀ n, i.operands.kw = some n → (t.kreg i.operands.kd).toNat = (s.kreg n).toNat % 2 ^ width i.vlen) ∧
    (∀ n, i.operands.kw = some n → (s.kreg n).toNat % 2 ^ width i.vlen = 0 → t.kreg i.operands.kd = 0)

/-- 10_state.md R17, R20, 40_vpcmpb_vpcmpub.md R84 g: two states that agree on the general registers, memory, `pc`, the
launch, and on the elements and writemask bits below the element count answer alike: the same fault or refusal, or
completion with the same destination and `pc`. -/
def Obligations.HigherSourceAndMaskBitsAreIgnored : Prop :=
  ∀ (i : Instr) (s s' : State), s'.x = s.x → s'.mem = s.mem → s'.pc = s.pc → s'.launch = s.launch →
    (∀ j < width i.vlen, element (s'.vreg i.operands.vs1) j = element (s.vreg i.operands.vs1) j ∧
      (∀ n, i.operands.src2 = .reg n → element (s'.vreg n) j = element (s.vreg n) j) ∧
      ∀ n, i.operands.kw = some n → (s'.kreg n).getLsbD j = (s.kreg n).getLsbD j) →
    (∀ f, exec i s = .fault f → exec i s' = .fault f) ∧
    (∀ r, exec i s = .refused r → exec i s' = .refused r) ∧
    ∀ t, exec i s = .next t →
      ∃ t', exec i s' = .next t' ∧ t'.kreg i.operands.kd = t.kreg i.operands.kd ∧ t'.pc = t.pc

/-- 70_reset_and_hazards.md R112, 40_vpcmpb_vpcmpub.md R90: an instruction whose writemask is the destination of the
instruction before it gives its own unmasked result ANDed with that result, in full and at once. -/
def Obligations.ResultIsVisibleAsTheNextWritemask : Prop :=
  ∀ (i j : Instr) (s t u u' : State), exec i s = .next t → j.operands.kw = some i.operands.kd →
    exec j t = .next u → exec (withoutMask j) t = .next u' →
    u.kreg j.operands.kd = u'.kreg j.operands.kd &&& t.kreg i.operands.kd

/-! ### The operand-level function -/

/-- 40_vpcmpb_vpcmpub.md R68: the eight predicates. -/
def Obligations.PredicateNumbersMeanTheirRelations : Prop :=
  ∀ (p : BitVec 3) (a b : Int), relHolds (predicateOf p) a b = true ↔ relation p.toNat a b

/-- 40_vpcmpb_vpcmpub.md R83: on every pair of bytes EQ and NEQ do not depend on the signedness, and LT, LE, NLT and NLE
differ between signed and unsigned exactly where bit 7 of the two bytes differs. -/
def Obligations.SignednessMattersExactlyWhenSignBitsDiffer : Prop :=
  ∀ (a b : Byte) (p : BitVec 3),
    ((p = 0 ∨ p = 4) → relHolds (predicateOf p) (byteValue .signed a) (byteValue .signed b) =
      relHolds (predicateOf p) (byteValue .unsigned a) (byteValue .unsigned b)) ∧
    ((p = 1 ∨ p = 2 ∨ p = 5 ∨ p = 6) →
      (relHolds (predicateOf p) (byteValue .signed a) (byteValue .signed b) ≠
        relHolds (predicateOf p) (byteValue .unsigned a) (byteValue .unsigned b) ↔
        a.getLsbD 7 ≠ b.getLsbD 7))

/-- 40_vpcmpb_vpcmpub.md R90: the eight results of one pair of sources under one writemask determine one another, and
the masked result is the unmasked one ANDed with the low bits of the mask. -/
def Obligations.PredicateResultsAreComplementary : Prop :=
  ∀ (sg : Signedness) (vl : VLen) (m : Option Mask) (a b : Vec),
    let r := fun n : Nat => vpcmp sg vl.kl (predicateOf (BitVec.ofNat 3 n)) m a b
    let low := maskLow vl.kl m
    r 3 = 0 ∧ r 7 = low ∧ r 4 = (low &&& ~~~ r 0) ∧ r 5 = (low &&& ~~~ r 1) ∧ r 6 = (low &&& ~~~ r 2) ∧
      r 2 = (r 1 ||| r 0) ∧ (r 1 &&& r 0) = 0 ∧
      (∀ sg', vpcmp sg' vl.kl .eq m a b = r 0 ∧ vpcmp sg' vl.kl .neq m a b = r 4) ∧
      ∀ p, vpcmp sg vl.kl p m a b = (vpcmp sg vl.kl p none a b &&& low)

/-- 40_vpcmpb_vpcmpub.md R90: swapping the sources turns LT into NLE and LE into NLT. -/
def Obligations.SwappedSourcesSwapTheRelation : Prop :=
  ∀ (sg : Signedness) (vl : VLen) (m : Option Mask) (a b : Vec),
    vpcmp sg vl.kl .lt m a b = vpcmp sg vl.kl .nle m b a ∧ vpcmp sg vl.kl .le m a b = vpcmp sg vl.kl .nlt m b a

/-- 40_vpcmpb_vpcmpub.md R90: the signed result is the unsigned result on sources with bit 7 of every byte flipped. -/
def Obligations.SignedIsUnsignedOnFlippedSignBits : Prop :=
  ∀ (vl : VLen) (p : Predicate) (m : Option Mask) (a b : Vec),
    vpcmp .signed vl.kl p m a b = vpcmp .unsigned vl.kl p m (a ^^^ signBits) (b ^^^ signBits)

/-! ### Memory operands -/

/-- 30_encoding.md R56, R57: the effective address of every addressing mode, as integers modulo `2^64`. -/
def Obligations.EffectiveAddressOfEveryMode : Prop :=
  ∀ (vl : VLen) (len : Nat) (s : State),
    (∀ d, ((effAddr vl len (.ripRel d) s).toNat : Int) = (s.pc.toNat + len + d.toInt) % 2 ^ 64) ∧
    (∀ b disp, ((effAddr vl len (.base b disp) s).toNat : Int) =
      ((s.xreg b).toNat + dispNumber vl disp) % 2 ^ 64) ∧
    (∀ b index disp, ((effAddr vl len (.sib b index disp) s).toNat : Int) =
      ((s.xreg b).toNat + indexNumber index s + dispNumber vl disp) % 2 ^ 64) ∧
    ∀ index d, ((effAddr vl len (.sibNoBase index d) s).toNat : Int) =
      (indexNumber index s + d.toInt) % 2 ^ 64

/-- 20_memory.md R31, R32 (the spec's decision D9): where every byte is admitted, the value read is the little-endian
number of the `n` bytes from `addr` on, addresses modulo `2^64`. -/
def Obligations.MemReadIsLittleEndian : Prop :=
  ∀ (s : State) (addr : Addr) (n : Nat), n ≤ 64 →
    (∀ t < n, s.memAdmit (addr + BitVec.ofNat 64 t) = true) →
    ∃ v, memRead s addr n = .ok v ∧
      v.toNat = ((List.range n).map fun t => (s.mem.load (addr + BitVec.ofNat 64 t)).toNat * 256 ^ t).sum

/-- What `MemWrite` stores, `MemRead` reads back (20_memory.md R31), and no byte outside the stored ones changes. The spec
gives `MemWrite` a name and no effect: its effect here, with no admission check, is the model's choice (entry 25). -/
def Obligations.MemWriteIsReadBack : Prop :=
  ∀ (s : State) (addr : Addr) (n : Nat) (v : Vec), s.mem.wf = true → n ≤ 64 →
    ((∀ t < n, s.memAdmit (addr + BitVec.ofNat 64 t) = true) →
      ∃ u, memRead (memWrite s addr n v) addr n = .ok u ∧ u.toNat = v.toNat % 2 ^ (8 * n)) ∧
    ∀ a, (∀ t < n, a ≠ addr + BitVec.ofNat 64 t) → (memWrite s addr n v).mem.load a = s.mem.load a

/-- 20_memory.md R31, R38, 60_exceptions.md R98 (the spec's decision D12): once the other checks pass, a memory form
faults, with `pc`, its effective address and its size, exactly when `MemAdmit` refuses some byte of the operand,
whatever the writemask and the predicate; a register form never faults. -/
def Obligations.MemoryFormFaultsExactlyWhenAByteIsRefused : Prop :=
  ∀ (i : Instr) (s : State), Ready i.vlen i.length s →
    (∀ m, i.operands.src2 = .mem m →
      (exec i s = .fault (.memFault s.pc (effAddr i.vlen i.length m s) (width i.vlen)) ↔
        ∃ t < width i.vlen, s.memAdmit (effAddr i.vlen i.length m s + BitVec.ofNat 64 t) = false)) ∧
    ∀ n, i.operands.src2 = .reg n → ∀ f, exec i s ≠ .fault f

/-! ### Checks before the effect -/

/-- 60_exceptions.md R96 (the spec's decision D18), R100: a row whose feature flag is clear raises `InvalidOpcode`, whatever
the enabling bits and the memory operand; the 512-bit rows do not need AVX512VL. -/
def Obligations.ClearFeatureFlagRaisesInvalidOpcode : Prop :=
  ∀ (i : Instr) (s : State), s.launch.mode = .bits64 → s.pc.toNat + i.length < 2 ^ 64 →
    (s.launch.avx512bw = false ∨ (i.vlen ≠ .v512 ∧ s.launch.avx512vl = false)) →
    exec i s = .fault (.invalidOpcode s.pc)

/-- 60_exceptions.md R97, R100 (the spec leaves open which of the two exceptions; the choice between them is DEDUCED from
the bits R97 names, entry 9): with the feature flags set, `OSXSAVE` or a required XCR0 bit clear raises `InvalidOpcode`;
with those set, `TS` set raises `DeviceNotAvailable`, before any memory fault. -/
def Obligations.StateNotEnabledRaises : Prop :=
  ∀ (i : Instr) (s : State), s.launch.mode = .bits64 → s.pc.toNat + i.length < 2 ^ 64 →
    s.launch.avx512bw = true → (i.vlen = .v512 ∨ s.launch.avx512vl = true) →
    ((s.launch.osxsave = false ∨ s.launch.xcr0Sse = false ∨ s.launch.xcr0Avx = false ∨ s.launch.xcr0Opmask = false ∨
        s.launch.xcr0ZmmHi256 = false ∨ s.launch.xcr0Hi16Zmm = false) →
      exec i s = .fault (.invalidOpcode s.pc)) ∧
    ((s.launch.osxsave = true ∧ s.launch.xcr0Sse = true ∧ s.launch.xcr0Avx = true ∧ s.launch.xcr0Opmask = true ∧
        s.launch.xcr0ZmmHi256 = true ∧ s.launch.xcr0Hi16Zmm = true) → s.launch.ts = true →
      exec i s = .fault (.deviceNotAvailable s.pc))

/-- 10_state.md R23 (the spec's decision D14): in 64-bit mode an instruction whose `pc + len` would pass `2^64 - 1` is
refused; that this stands before the feature flags is the model's choice, entry 11. -/
def Obligations.PcPassingTheTopIsRefused : Prop :=
  ∀ (i : Instr) (s : State), s.launch.mode = .bits64 →
    (2 ^ 64 ≤ s.pc.toNat + i.length ↔ exec i s = .refused (.ipWrap s.pc))

/-! ### Assembler level -/

/-- 30_encoding.md R65: a pseudo-op of Table 5-21 stands for an instruction whose completed effect is the comparison its
name says, on signed or unsigned bytes as its suffix says. -/
def Obligations.PseudoOpsCompareAsNamed : Prop :=
  ∀ (c : PseudoCond) (sg : Signedness) (cls : VLen) (kd : KReg) (vs1 vs2 : VReg),
    ∃ i, AsmLine.expand ⟨.pseudo c sg, kd, none, cls, vs1, .reg vs2, none⟩ = some i ∧
      ∀ s t, exec i s = .next t → ∀ j < 64,
        ((t.kreg kd).getLsbD j = true ↔
          j < width cls ∧ pseudoRelation c (number sg (element (s.vreg vs1) j)) (number sg (element (s.vreg vs2) j)))

/-- 30_encoding.md R66 (the spec's decision D28): an intrinsic returns the low `KL` bits of what the instruction it stands
for leaves in its destination, and the instruction's destination has nothing above them. That `cmp` may be any byte is
the model's choice (entry 26), and so is a writemask written k0 (entry 27). -/
def Obligations.IntrinsicReturnsTheInstructionResult : Prop :=
  ∀ (f : Intrinsic) (kd n : KReg) (vs1 vs2 : VReg) (cmp : Byte) (s t : State),
    exec (Instr.ofForm f.sg f.vl
      { kd := kd, kw := if f.masked then some n else none, vs1 := vs1, src2 := .reg vs2, imm8 := f.imm8 cmp }) s =
        .next t →
    t.kreg kd =
      (f.value ((s.kreg n).setWidth f.vl.kl) ((s.vreg vs1).setWidth f.vl.bits) ((s.vreg vs2).setWidth f.vl.bits)
        cmp).setWidth 64

/-- 30_encoding.md R66 (the spec's decision D28): the fixed-predicate intrinsics compare as their names say, `ge` and `gt`
included. -/
def Obligations.NamedIntrinsicsCompareAsNamed : Prop :=
  ∀ (f : Intrinsic) (c : IntrinsicCond) (m : BitVec f.vl.kl) (a b : BitVec f.vl.bits) (cmp : Byte), f.cond = some c →
    ∀ j < width f.vl, ((f.value m a b cmp).getLsbD j = true ↔
      (f.masked = true → m.getLsbD j = true) ∧
        namedRelation c (number f.sg (element (a.setWidth 512) j)) (number f.sg (element (b.setWidth 512) j)))

/-- 30_encoding.md R64: the assembly line of an instruction stands for that instruction. That this is so also of operands
that no encoding can spell is the model's choice (entry 27). -/
def Obligations.AssemblyLineStandsForItsInstruction : Prop := ∀ i : Instr, (lineOf i).expand = some i

/-! ### Invariants and runs -/

/-- 70_reset_and_hazards.md R111, 20_memory.md R42: every step from any state that meets the invariant (canonical memory,
the launch premises) gives a state that meets it. -/
def Obligations.StepKeepsTheLaunchInvariant : Prop := ∀ s t : State, LaunchInv s → step s = .next t → LaunchInv t

/-- The state a run starts from meets the invariant. That it meets the premises of R111 is the model's choice (entries 1
to 6): the spec gives no reset values. -/
def Obligations.ResetMeetsTheLaunchInvariant : Prop := LaunchInv State.reset

/-- 70_reset_and_hazards.md R111: under the invariant no step raises `InvalidOpcode` or `DeviceNotAvailable` and none is
refused for its mode; what is left is a decoder's refusal, the top of the address space, or a memory fault. -/
def Obligations.InvariantLeavesOnlyThreeStops : Prop :=
  ∀ s : State, LaunchInv s →
    (∃ t, step s = .next t) ∨ (∃ r, step s = .refused (.decode r s.pc)) ∨ step s = .refused (.ipWrap s.pc) ∨
      ∃ ea n, step s = .fault (.memFault s.pc ea n)

/-- 10_state.md R15, 20_memory.md R42, 40_vpcmpb_vpcmpub.md R85: a run of any number of completed steps from any state
leaves the vector and general registers, the flags registers, memory and the launch's parameters as they were, and
moves `pc` up by 7 to 12 a step without wrapping. -/
def Obligations.RunsWriteOnlyMasksAndAdvancePc : Prop :=
  ∀ (n : Nat) (s t : State), Sys2Proof.core.run n s = .next t →
    t.v = s.v ∧ t.x = s.x ∧ t.rflags = s.rflags ∧ t.mxcsr = s.mxcsr ∧ t.mem = s.mem ∧ t.launch = s.launch ∧
      s.pc.toNat + 7 * n ≤ t.pc.toNat ∧ t.pc.toNat ≤ s.pc.toNat + 12 * n

/-- 70_reset_and_hazards.md R115, 40_vpcmpb_vpcmpub.md R85: any straight-line sequence of well-formed instructions with
register or admitted memory operands, placed at `pc` below the top of the address space in a state that meets the
invariant and admits every address, runs one step an instruction and ends at its end; where there is an instruction at
all, that is the end of a safe run, not reached before. -/
def Obligations.StraightLineSequencesRunToTheirEnd : Prop :=
  ∀ (is : List Instr) (s : State), LaunchInv s →
    (∀ i ∈ is, i.wellFormed = true ∧ immAdmitted s.launch.immPolicy i.operands.imm8 = true) →
    (∀ a, s.memAdmit a = true) →
    holdsBytes s.mem s.pc (programBytes is) → s.pc.toNat + (programBytes is).length < 2 ^ 64 →
    ∃ t, Sys2Proof.core.run is.length s = .next t ∧ FinalAt s.pc (programBytes is).length t ∧
      (is ≠ [] → EndsAfter s.pc (programBytes is).length is.length s t ∧ SafeRun s.pc (programBytes is) s)

end
end

