-- ==== Sys2Proof/Laws/Flags.lean ====
section
/-! SUPPORT. The comparison bit by bit. -/

namespace Sys2Proof.Machine

theorem maskOfLanes_getLsbD (f : Nat → Bool) (n j : Nat) (hn : n ≤ 64) :
    (maskOfLanes f n).getLsbD j = (decide (j < n) && f j) := by
  induction n with
  | zero => simp [maskOfLanes]
  | succ n ih =>
    rw [maskOfLanes, BitVec.getLsbD_or, ih (by omega)]
    simp only [BitVec.getLsbD_shiftLeft, BitVec.getLsbD_setWidth]
    rcases lt_trichotomy j n with h | rfl | h
    · simp [h, show j < n + 1 by omega]
    · simp [show j < 64 by omega]
    · simp [show ¬ j < n by omega, show ¬ j < n + 1 by omega]
      intros; omega

theorem VLen.kl_le (vl : VLen) : vl.kl ≤ 64 := by cases vl <;> decide

/-- Bit `j` of `M`: below the element count, the writemask's bit, or 1 without a writemask. -/
theorem maskLow_getLsbD (kl j : Nat) (mask : Option Mask) (hkl : kl ≤ 64) :
    (maskLow kl mask).getLsbD j = (decide (j < kl) && mask.all fun m => m.getLsbD j) := by
  cases mask <;> simp [maskLow, maskOfLanes_getLsbD _ _ _ hkl]

/-- Bit `j` of the operand-level function: an enabled lane below the element count whose comparison holds. -/
theorem vpcmp_getLsbD (sg : Signedness) (kl : Nat) (p : Predicate) (mask : Option Mask) (a b : Vec) (j : Nat)
    (hkl : kl ≤ 64) :
    (vpcmp sg kl p mask a b).getLsbD j =
      (decide (j < kl) && (mask.all fun m => m.getLsbD j) && laneHolds sg p a b j) := by
  rw [vpcmp, BitVec.getLsbD_and, maskLow_getLsbD _ _ _ hkl, maskOfLanes_getLsbD _ _ _ hkl]
  cases decide (j < kl) <;> simp

/-- One written bit of a mask. -/
theorem setMaskBit_getLsbD (d : Mask) (j i : Nat) (b : Bool) (hj : j < 64) :
    (setMaskBit d j b).getLsbD i = if i = j then b else d.getLsbD i := by
  by_cases h : i = j
  · subst h; cases b <;> simp [setMaskBit, hj]
  · have h1 : ¬ (j ≤ i ∧ i - j = 0) := by omega
    have h2 : ((1#64 <<< j).getLsbD i) = false := by
      simp only [BitVec.getLsbD_shiftLeft, BitVec.getLsbD_one]
      by_cases hi : i < j <;> simp [hi]; omega
    cases b
    · simp only [setMaskBit, Bool.false_eq_true, if_false, BitVec.getLsbD_and, BitVec.getLsbD_not, h2]
      by_cases hi : i < 64
      · simp [hi, h]
      · simp [hi, h, BitVec.getLsbD_of_ge d i (by omega)]
    · simp [setMaskBit, BitVec.getLsbD_or, h2, h]

end Sys2Proof.Machine
end

