-- ==== Sys2Proof/Laws/Memory.lean ====
section
/-! SUPPORT. Memory: read after write, the canonical form that every memory operation keeps, and what a load and a fetch
hold byte by byte. -/

namespace Sys2Proof.Machine

/-! ### One byte -/

theorem Memory.wfFrom_cons {lo a : Nat} {b : Byte} {rest : Memory} :
    Memory.wfFrom lo ((a, b) :: rest) = true ↔
      lo ≤ a ∧ a < 2 ^ 64 ∧ b ≠ Config.unlistedByte ∧ Memory.wfFrom (a + 1) rest = true := by
  simp [Memory.wfFrom, and_assoc]

theorem Memory.wfFrom_mono {lo lo' : Nat} {m : Memory} (h : lo' ≤ lo) (hm : Memory.wfFrom lo m = true) :
    Memory.wfFrom lo' m = true := by
  cases m with
  | nil => rfl
  | cons c rest =>
    rw [Memory.wfFrom_cons] at hm ⊢
    exact ⟨h.trans hm.1, hm.2⟩

/-- An address below every listed one is unlisted. -/
theorem Memory.readByte_below {m : Memory} {lo q : Nat} (hm : Memory.wfFrom lo m = true) (h : q < lo) :
    Memory.readByte m q = Config.unlistedByte := by
  induction m generalizing lo with
  | nil => rfl
  | cons c rest ih =>
    obtain ⟨a, b⟩ := c
    obtain ⟨h1, -, -, h4⟩ := Memory.wfFrom_cons.mp hm
    rw [Memory.readByte, if_neg (by omega)]
    exact ih h4 (by omega)

/-- A byte reads as the last one written there, every other byte as before. -/
theorem Memory.readByte_writeByte {m : Memory} {lo : Nat} (hm : Memory.wfFrom lo m = true) (n q : Nat) (v : Byte) :
    Memory.readByte (Memory.writeByte m n v) q = if q = n then v else Memory.readByte m q := by
  induction m generalizing lo with
  | nil =>
    by_cases hv : v = Config.unlistedByte <;> by_cases hq : q = n <;>
      simp [Memory.writeByte, Memory.readByte, hv, hq, @eq_comm _ n q]
  | cons c rest ih =>
    obtain ⟨a, b⟩ := c
    obtain ⟨-, -, -, h4⟩ := Memory.wfFrom_cons.mp hm
    have below : ∀ p, p ≤ a → Memory.readByte rest p = Config.unlistedByte :=
      fun p hp => Memory.readByte_below h4 (by omega)
    rcases Nat.lt_trichotomy n a with hlt | rfl | hgt
    · by_cases hv : v = Config.unlistedByte <;> by_cases hq : q = n
      · subst hq; simp [Memory.writeByte, Memory.readByte, hlt, hv, below q (by omega), show a ≠ q by omega]
      · simp [Memory.writeByte, hlt, hv, hq]
      · simp [Memory.writeByte, Memory.readByte, hlt, hv, hq]
      · simp [Memory.writeByte, Memory.readByte, hlt, hv, hq, show n ≠ q by omega]
    · by_cases hv : v = Config.unlistedByte <;> by_cases hq : q = n
      · subst hq; simp [Memory.writeByte, hv, below q le_rfl]
      · simp [Memory.writeByte, Memory.readByte, hv, hq, show n ≠ q by omega]
      · simp [Memory.writeByte, Memory.readByte, hv, hq]
      · simp [Memory.writeByte, Memory.readByte, hv, hq, show n ≠ q by omega]
    · have hw : Memory.writeByte ((a, b) :: rest) n v = (a, b) :: Memory.writeByte rest n v := by
        simp [Memory.writeByte, show ¬ n < a by omega, show n ≠ a by omega]
      rw [hw]
      by_cases haq : a = q
      · subst haq
        simp [Memory.readByte, show a ≠ n by omega]
      · simp [Memory.readByte, haq, ih h4]

/-- A write keeps the canonical form. -/
theorem Memory.wfFrom_writeByte {m : Memory} {lo n : Nat} (v : Byte) (hm : Memory.wfFrom lo m = true) (hlo : lo ≤ n)
    (hn : n < 2 ^ 64) : Memory.wfFrom lo (Memory.writeByte m n v) = true := by
  induction m generalizing lo with
  | nil =>
    by_cases hv : v = Config.unlistedByte
    · simp [Memory.writeByte, hv, Memory.wfFrom]
    · rw [Memory.writeByte, if_neg hv, Memory.wfFrom_cons]
      exact ⟨hlo, hn, hv, rfl⟩
  | cons c rest ih =>
    obtain ⟨a, b⟩ := c
    obtain ⟨h1, h2, h3, h4⟩ := Memory.wfFrom_cons.mp hm
    rcases Nat.lt_trichotomy n a with hlt | rfl | hgt
    · by_cases hv : v = Config.unlistedByte
      · rw [Memory.writeByte, if_pos hlt, if_pos hv]; exact hm
      · rw [Memory.writeByte, if_pos hlt, if_neg hv, Memory.wfFrom_cons, Memory.wfFrom_cons]
        exact ⟨hlo, hn, hv, hlt, h2, h3, h4⟩
    · by_cases hv : v = Config.unlistedByte
      · rw [Memory.writeByte, if_neg (lt_irrefl _), if_pos rfl, if_pos hv]
        exact Memory.wfFrom_mono (by omega) h4
      · rw [Memory.writeByte, if_neg (lt_irrefl _), if_pos rfl, if_neg hv, Memory.wfFrom_cons]
        exact ⟨hlo, hn, hv, h4⟩
    · rw [Memory.writeByte, if_neg (by omega), if_neg (by omega), Memory.wfFrom_cons]
      exact ⟨h1, h2, h3, ih h4 (by omega)⟩

/-! ### Several bytes -/

theorem Memory.wf_storeBytes {m : Memory} (a : Addr) (bs : List Byte) (hm : m.wf = true) :
    (m.storeBytes a bs).wf = true := by
  induction bs generalizing m a with
  | nil => exact hm
  | cons b rest ih => exact ih (a + 1) (Memory.wfFrom_writeByte b hm (Nat.zero_le _) a.isLt)

/-- The host's load of program bytes keeps the canonical form. -/
theorem placeAtPc_wf {s : State} (bs : List Byte) (hs : s.mem.wf = true) : (placeAtPc s bs).mem.wf = true :=
  Memory.wf_storeBytes s.pc bs hs

/-- `MemWrite` keeps the canonical form. -/
theorem memWrite_wf {s : State} (a : Addr) (n : Nat) (v : Vec) (hs : s.mem.wf = true) :
    (memWrite s a n v).mem.wf = true :=
  Memory.wf_storeBytes a _ hs

theorem reset_mem_wf : State.reset.mem.wf = true := rfl

/-- A byte outside the stored ones reads as before. -/
theorem Memory.load_storeBytes_other {m : Memory} (a q : Addr) (bs : List Byte) (hm : m.wf = true)
    (h : ∀ t < bs.length, q ≠ a + BitVec.ofNat 64 t) : (m.storeBytes a bs).load q = m.load q := by
  induction bs generalizing m a with
  | nil => rfl
  | cons b rest ih =>
    have hq : q.toNat ≠ a.toNat := fun e => h 0 (by simp) (by simpa using BitVec.eq_of_toNat_eq e)
    rw [Memory.storeBytes, ih (a + 1) (Memory.wfFrom_writeByte b hm (Nat.zero_le _) a.isLt)]
    · rw [Memory.load, Memory.readByte_writeByte hm, if_neg hq, Memory.load]
    · intro t ht e
      refine h (t + 1) (by simpa using ht) ?_
      rw [e]; simp only [BitVec.ofNat_add]; ac_rfl

/-- The bytes just stored, where they do not wrap onto themselves. -/
theorem Memory.load_storeBytes_self {m : Memory} (a : Addr) (bs : List Byte) (hm : m.wf = true)
    (hlen : bs.length ≤ 2 ^ 64) (t : Nat) (ht : t < bs.length) :
    (m.storeBytes a bs).load (a + BitVec.ofNat 64 t) = bs[t] := by
  induction bs generalizing m a t with
  | nil => simp at ht
  | cons b rest ih =>
    have hw : (Memory.writeByte m a.toNat b).wf = true := Memory.wfFrom_writeByte b hm (Nat.zero_le _) a.isLt
    cases t with
    | zero =>
      rw [Memory.storeBytes, Memory.load_storeBytes_other _ _ _ hw]
      · simp [Memory.load, Memory.readByte_writeByte hm]
      · intro t ht e
        have h1 : (1#64 + BitVec.ofNat 64 t) = 0#64 := by
          have : a + 0#64 = a + (1#64 + BitVec.ofNat 64 t) := by rw [← BitVec.add_assoc]; exact e
          exact (BitVec.add_right_inj a).mp this |>.symm
        have h2 := congrArg BitVec.toNat h1
        simp at h2 ht hlen
        omega
    | succ t =>
      have := ih (a + 1) hw (by simp at hlen; omega) t (by simpa using ht)
      rw [Memory.storeBytes]
      simp only [List.getElem_cons_succ, ← this]
      congr 1
      simp only [BitVec.ofNat_add]; ac_rfl

/-- Byte `t` of a load is the byte at `a + t`; above the loaded bytes there are zeros (20_memory.md R31, R33). -/
theorem lane_loadBytes (m : Memory) (a : Addr) (n t : Nat) (hn : n ≤ 64) :
    lane (m.loadBytes a n) t = if t < n then m.load (a + BitVec.ofNat 64 t) else 0 := by
  have bit : ∀ j, (m.loadBytes a n).getLsbD j =
      (decide (j < 8 * n) && (m.load (a + BitVec.ofNat 64 (j / 8))).getLsbD (j % 8)) := by
    intro j
    induction n with
    | zero => simp [Memory.loadBytes]
    | succ n ih =>
      rw [Memory.loadBytes, BitVec.getLsbD_or, ih (by omega)]
      simp only [BitVec.getLsbD_shiftLeft, BitVec.getLsbD_setWidth]
      rcases lt_trichotomy (j / 8) n with h | h | h
      · simp [show j < 8 * n by omega, show j < 8 * (n + 1) by omega]
      · have e : j - 8 * n = j % 8 := by omega
        simp [show ¬ j < 8 * n by omega, show j < 8 * (n + 1) by omega, show j < 512 by omega, e, h,
          show j % 8 < 512 by omega]
      · have : (m.load (a + BitVec.ofNat 64 n)).getLsbD (j - 8 * n) = false :=
          BitVec.getLsbD_of_ge _ _ (by omega)
        simp [show ¬ j < 8 * n by omega, show ¬ j < 8 * (n + 1) by omega, this]
  apply BitVec.eq_of_getLsbD_eq
  intro i hi
  simp only [lane, BitVec.getLsbD_extractLsb', hi, decide_true, Bool.true_and, bit]
  have e1 : (8 * t + i) / 8 = t := by omega
  have e2 : (8 * t + i) % 8 = i := by omega
  by_cases ht : t < n
  · simp [ht, e1, e2, show 8 * t + i < 8 * n by omega]
  · simp [ht, show ¬ 8 * t + i < 8 * n by omega]

theorem Memory.length_bytesFrom (m : Memory) (a : Addr) (n : Nat) : (m.bytesFrom a n).length = n := by
  induction n generalizing a with
  | zero => rfl
  | succ n ih => simp [Memory.bytesFrom, ih]

theorem Memory.getElem_bytesFrom (m : Memory) (a : Addr) (n t : Nat) (h : t < (m.bytesFrom a n).length) :
    (m.bytesFrom a n)[t] = m.load (a + BitVec.ofNat 64 t) := by
  induction n generalizing a t with
  | zero => simp [Memory.bytesFrom] at h
  | succ n ih =>
    cases t with
    | zero => simp [Memory.bytesFrom]
    | succ t =>
      simp only [Memory.bytesFrom, List.getElem_cons_succ, ih]
      congr 1
      simp only [BitVec.ofNat_add]; ac_rfl

/-- What `memRead` answers: the load, when every byte is admitted, else the fault that records the access. -/
theorem memRead_cases (s : State) (a : Addr) (n : Nat) :
    ((∀ t < n, s.memAdmit (a + BitVec.ofNat 64 t) = true) ∧ memRead s a n = .ok (s.mem.loadBytes a n)) ∨
    ((∃ t < n, s.memAdmit (a + BitVec.ofNat 64 t) = false) ∧ memRead s a n = .error (.memFault s.pc a n)) := by
  by_cases h : s.memAdmitAll a n = true
  · refine .inl ⟨fun t ht => ?_, by simp [memRead, h]⟩
    simp only [State.memAdmitAll, List.all_eq_true, List.mem_range] at h
    exact h t ht
  · refine .inr ⟨?_, by simp [memRead, h]⟩
    simp only [State.memAdmitAll, List.all_eq_true, List.mem_range, not_forall] at h
    obtain ⟨t, ht, h⟩ := h
    exact ⟨t, ht, by simpa using h⟩

end Sys2Proof.Machine
end

