-- ==== Sys2Proof/Laws/State.lean ====
section
/-! SUPPORT. One lemma per field per update of the state, and what a register reads after a write. -/

namespace Sys2Proof.Machine

/-! ### `setK` -/

@[simp] theorem State.setK_v (s : State) (n : KReg) (m : Mask) : (s.setK n m).v = s.v := rfl
@[simp] theorem State.setK_x (s : State) (n : KReg) (m : Mask) : (s.setK n m).x = s.x := rfl
@[simp] theorem State.setK_pc (s : State) (n : KReg) (m : Mask) : (s.setK n m).pc = s.pc := rfl
@[simp] theorem State.setK_rflags (s : State) (n : KReg) (m : Mask) : (s.setK n m).rflags = s.rflags := rfl
@[simp] theorem State.setK_mxcsr (s : State) (n : KReg) (m : Mask) : (s.setK n m).mxcsr = s.mxcsr := rfl
@[simp] theorem State.setK_mem (s : State) (n : KReg) (m : Mask) : (s.setK n m).mem = s.mem := rfl
@[simp] theorem State.setK_launch (s : State) (n : KReg) (m : Mask) : (s.setK n m).launch = s.launch := rfl

/-! ### `setPc` -/

@[simp] theorem State.setPc_k (s : State) (t : Addr) : (s.setPc t).k = s.k := rfl
@[simp] theorem State.setPc_v (s : State) (t : Addr) : (s.setPc t).v = s.v := rfl
@[simp] theorem State.setPc_x (s : State) (t : Addr) : (s.setPc t).x = s.x := rfl
@[simp] theorem State.setPc_pc (s : State) (t : Addr) : (s.setPc t).pc = t := rfl
@[simp] theorem State.setPc_rflags (s : State) (t : Addr) : (s.setPc t).rflags = s.rflags := rfl
@[simp] theorem State.setPc_mxcsr (s : State) (t : Addr) : (s.setPc t).mxcsr = s.mxcsr := rfl
@[simp] theorem State.setPc_mem (s : State) (t : Addr) : (s.setPc t).mem = s.mem := rfl
@[simp] theorem State.setPc_launch (s : State) (t : Addr) : (s.setPc t).launch = s.launch := rfl

/-! ### Register reads after an update -/

@[simp] theorem State.kreg_setK_self (s : State) (n : KReg) (m : Mask) : (s.setK n m).kreg n = m := by
  simp [State.kreg, State.setK]

theorem State.kreg_setK_other (s : State) {n r : KReg} (m : Mask) (h : r ≠ n) : (s.setK n m).kreg r = s.kreg r := by
  have h' : n.val ≠ r.val := fun e => h (Fin.ext e.symm)
  simp [State.kreg, State.setK, h']

@[simp] theorem State.kreg_setPc (s : State) (t : Addr) (n : KReg) : (s.setPc t).kreg n = s.kreg n := rfl
@[simp] theorem State.vreg_setK (s : State) (n : KReg) (m : Mask) (r : VReg) : (s.setK n m).vreg r = s.vreg r := rfl
@[simp] theorem State.vreg_setPc (s : State) (t : Addr) (r : VReg) : (s.setPc t).vreg r = s.vreg r := rfl
@[simp] theorem State.xreg_setK (s : State) (n : KReg) (m : Mask) (r : GReg) : (s.setK n m).xreg r = s.xreg r := rfl
@[simp] theorem State.xreg_setPc (s : State) (t : Addr) (r : GReg) : (s.setPc t).xreg r = s.xreg r := rfl

/-! ### `placeAtPc` and `memWrite` -/

@[simp] theorem placeAtPc_pc (s : State) (bs : List Byte) : (placeAtPc s bs).pc = s.pc := rfl
@[simp] theorem placeAtPc_k (s : State) (bs : List Byte) : (placeAtPc s bs).k = s.k := rfl
@[simp] theorem placeAtPc_v (s : State) (bs : List Byte) : (placeAtPc s bs).v = s.v := rfl
@[simp] theorem placeAtPc_x (s : State) (bs : List Byte) : (placeAtPc s bs).x = s.x := rfl
@[simp] theorem placeAtPc_launch (s : State) (bs : List Byte) : (placeAtPc s bs).launch = s.launch := rfl
@[simp] theorem memWrite_pc (s : State) (a : Addr) (n : Nat) (v : Vec) : (memWrite s a n v).pc = s.pc := rfl
@[simp] theorem memWrite_k (s : State) (a : Addr) (n : Nat) (v : Vec) : (memWrite s a n v).k = s.k := rfl
@[simp] theorem memWrite_v (s : State) (a : Addr) (n : Nat) (v : Vec) : (memWrite s a n v).v = s.v := rfl
@[simp] theorem memWrite_x (s : State) (a : Addr) (n : Nat) (v : Vec) : (memWrite s a n v).x = s.x := rfl
@[simp] theorem memWrite_launch (s : State) (a : Addr) (n : Nat) (v : Vec) : (memWrite s a n v).launch = s.launch := rfl

end Sys2Proof.Machine
end

