-- ==== Sys2Proof/Laws/Exec.lean ====
section
/-! SUPPORT. What each shared operation of an instruction can answer, said once: the checks, the operand fetch, the
shared body of the six forms, `exec` and `step`. -/

namespace Sys2Proof.Machine

/-- A table word is laid out over the longest instruction, so placing it sets every byte that the next fetch reads. -/
theorem wordBytes_length (nbits w : Nat) : (wordBytes nbits w).length = Config.maxLength := by
  unfold wordBytes
  dsimp only
  split <;> rw [List.length_map, List.length_range]

/-- The checks pass exactly in these states. -/
theorem gate_eq_none {vl : VLen} {len : Nat} {s : State} :
    gate vl len s = none ↔
      s.launch.mode = .bits64 ∧ s.pc.toNat + len < 2 ^ 64 ∧ s.launch.hasFeatures vl = true ∧
        s.launch.avx512Enabled = true := by
  unfold gate Launch.avx512Enabled
  constructor
  · intro h
    split at h
    · cases h
    split at h
    · cases h
    split at h
    · cases h
    split at h
    · cases h
    split at h
    · cases h
    · simp_all
  · rintro ⟨hm, hp, hf, he⟩
    simp only [Bool.and_eq_true, Bool.not_eq_true'] at he
    rw [if_neg (not_not_intro hm), if_neg (by omega), hf, he.1.1, he.1.2, he.2]
    rfl

/-- What a failed check answers. -/
theorem gate_eq_some {vl : VLen} {len : Nat} {s : State} {r : Host.Outcome State Fault Refusal}
    (h : gate vl len s = some r) :
    (r = .refused (.not64BitMode s.pc) ∧ s.launch.mode ≠ .bits64) ∨
    (r = .refused (.ipWrap s.pc) ∧ 2 ^ 64 ≤ s.pc.toNat + len) ∨
    (r = .fault (.invalidOpcode s.pc) ∧
      (s.launch.hasFeatures vl = false ∨ (s.launch.osxsave && s.launch.xcr0Enabled) = false)) ∨
    (r = .fault (.deviceNotAvailable s.pc) ∧ s.launch.ts = true) := by
  unfold gate raise refuse at h
  split at h
  · exact .inl ⟨(Option.some.inj h).symm, ‹_›⟩
  split at h
  · exact .inr (.inl ⟨(Option.some.inj h).symm, ‹_›⟩)
  split at h
  · rename_i hx
    exact .inr (.inr (.inl ⟨(Option.some.inj h).symm, .inl (by simpa using hx)⟩))
  split at h
  · rename_i hx
    refine .inr (.inr (.inl ⟨(Option.some.inj h).symm, .inr ?_⟩))
    cases hb : (s.launch.osxsave && s.launch.xcr0Enabled)
    · rfl
    · rw [hb] at hx; cases hx
  split at h
  · exact .inr (.inr (.inr ⟨(Option.some.inj h).symm, ‹_›⟩))
  · cases h

/-- The operand fetch faults only in the memory form, with the access it records. -/
theorem fetchSrc2_eq_error {vl : VLen} {src2 : Src2} {s : State} {f : Fault} (h : fetchSrc2 vl src2 s = .error f) :
    ∃ m, src2 = .mem m ∧ f = .memFault s.pc (effAddr vl src2.instrLength m s) vl.bytes ∧
      ∃ t < vl.bytes, s.memAdmit (effAddr vl src2.instrLength m s + BitVec.ofNat 64 t) = false := by
  cases src2 with
  | reg n => cases h
  | mem m =>
    rcases memRead_cases s (effAddr vl (Src2.mem m).instrLength m s) vl.bytes with ⟨-, hr⟩ | ⟨hb, hr⟩
    · rw [fetchSrc2, hr] at h; cases h
    · rw [fetchSrc2, hr] at h; cases h
      exact ⟨m, rfl, rfl, hb⟩

/-- The shared body either completes, with exactly this state, or stops in a check or in the operand fetch. -/
theorem compareInto_cases (sg : Signedness) (vl : VLen) (o : Operands) (s : State) :
    (∃ r, gate vl o.src2.instrLength s = some r ∧ compareInto sg vl o s = r) ∨
    (gate vl o.src2.instrLength s = none ∧
      ∃ f, fetchSrc2 vl o.src2 s = .error f ∧ compareInto sg vl o s = .fault f) ∨
    (gate vl o.src2.instrLength s = none ∧
      ∃ b, fetchSrc2 vl o.src2 s = .ok b ∧
        compareInto sg vl o s = .next ((s.setK o.kd
          (vpcmp sg vl.kl (predicateOfImm o.imm8) (fetchMask o.kw s) (fetchSrc1 vl o.vs1 s) b)).setPc
            (s.pc + BitVec.ofNat 64 o.src2.instrLength))) := by
  unfold compareInto complete raise
  cases hg : gate vl o.src2.instrLength s with
  | some r => exact .inl ⟨r, rfl, rfl⟩
  | none =>
    cases hf : fetchSrc2 vl o.src2 s with
    | error f => exact .inr (.inl ⟨rfl, f, rfl, rfl⟩)
    | ok b => exact .inr (.inr ⟨rfl, b, rfl, rfl⟩)

/-- Every row's meaning is the shared body at the row's signedness and length. -/
theorem exec_eq_compareInto (i : Instr) (s : State) : exec i s = compareInto i.signedness i.vlen i.operands s := by
  cases i <;> rfl

/-- If an instruction completes, this is its next state. -/
theorem exec_eq_next {i : Instr} {s t : State} (h : exec i s = .next t) :
    ∃ b, gate i.vlen i.length s = none ∧ fetchSrc2 i.vlen i.operands.src2 s = .ok b ∧
      t = (s.setK i.operands.kd (vpcmp i.signedness i.vlen.kl (predicateOfImm i.operands.imm8)
        (fetchMask i.operands.kw s) (fetchSrc1 i.vlen i.operands.vs1 s) b)).setPc (s.pc + BitVec.ofNat 64 i.length) := by
  rw [exec_eq_compareInto] at h
  rcases compareInto_cases i.signedness i.vlen i.operands s with ⟨r, hg, hr⟩ | ⟨hg, f, -, hr⟩ | ⟨hg, b, hb, hr⟩
  · rw [hr] at h; subst h
    rcases gate_eq_some hg with ⟨e, -⟩ | ⟨e, -⟩ | ⟨e, -⟩ | ⟨e, -⟩ <;> cases e
  · rw [hr] at h; cases h
  · rw [hr] at h; cases h
    exact ⟨b, hg, hb, rfl⟩

/-- What a step does: it refuses the mode or the bytes, or it runs the decoded instruction. -/
theorem step_cases (s : State) :
    (s.launch.mode ≠ .bits64 ∧ step s = .refused (.not64BitMode s.pc)) ∨
    (s.launch.mode = .bits64 ∧ ∃ r, fetchDecode s = .error r ∧ step s = .refused (.decode r s.pc)) ∨
    (s.launch.mode = .bits64 ∧ ∃ i, fetchDecode s = .ok i ∧ step s = exec i s) := by
  unfold step refuse
  by_cases hm : s.launch.mode = .bits64
  · rw [if_neg (by simpa using hm)]
    cases hd : fetchDecode s with
    | error r => exact .inr (.inl ⟨hm, r, rfl, rfl⟩)
    | ok i => exact .inr (.inr ⟨hm, i, rfl, rfl⟩)
  · exact .inl ⟨hm, if_pos hm⟩

/-- If a step completes, an instruction was decoded and ran to completion. -/
theorem step_eq_next {s t : State} (h : step s = .next t) :
    ∃ i, fetchDecode s = .ok i ∧ exec i s = .next t := by
  rcases step_cases s with ⟨-, e⟩ | ⟨-, r, -, e⟩ | ⟨-, i, hi, e⟩
  · rw [e] at h; cases h
  · rw [e] at h; cases h
  · exact ⟨i, hi, e ▸ h⟩

end Sys2Proof.Machine
end

