-- ==== Sys2Proof/Laws/PerInstr.lean ====
section
/-! SUPPORT. The families of statements made for each instruction as syntax, one lemma per constructor. -/

namespace Sys2Proof.Laws

theorem encodeSrc2_tail_length (src2 : Src2) : (encodeSrc2 src2).tail.length = src2.extraLength := by
  rcases src2 with n | d | ⟨g, disp⟩ | ⟨g, index, disp⟩ | ⟨index, d⟩
  · rfl
  · rfl
  · cases disp <;> rfl
  · cases disp <;> rfl
  · rfl

/-- The encoding begins with the escape byte, holds the row's opcode byte in place 4, and has as many bytes as
30_encoding.md R59 counts. -/
def EncodingShape.Statement (i : Instr) : Prop :=
  (encode i).length = i.length ∧ (encode i)[0]? = some 0x62#8 ∧ (encode i)[4]? = some i.signedness.opcode

theorem encodingShape_of (i : Instr) : EncodingShape.Statement i := by
  refine ⟨?_, rfl, rfl⟩
  simp only [encode, List.length_append, List.length_cons, List.length_nil, encodeSrc2_tail_length, Instr.length,
    Src2.instrLength]
  omega

theorem EncodingShape.vpcmpb128 (o : Operands) : EncodingShape.Statement (.vpcmpb128 o) := encodingShape_of _
theorem EncodingShape.vpcmpb256 (o : Operands) : EncodingShape.Statement (.vpcmpb256 o) := encodingShape_of _
theorem EncodingShape.vpcmpb512 (o : Operands) : EncodingShape.Statement (.vpcmpb512 o) := encodingShape_of _
theorem EncodingShape.vpcmpub128 (o : Operands) : EncodingShape.Statement (.vpcmpub128 o) := encodingShape_of _
theorem EncodingShape.vpcmpub256 (o : Operands) : EncodingShape.Statement (.vpcmpub256 o) := encodingShape_of _
theorem EncodingShape.vpcmpub512 (o : Operands) : EncodingShape.Statement (.vpcmpub512 o) := encodingShape_of _

end Sys2Proof.Laws
end

