-- ==== Sys2Proof/Laws/Runs.lean ====
section
/-! SUPPORT. What a run of the machine can answer, and that its end is well defined (70_reset_and_hazards.md R115). -/

namespace Sys2Proof.Machine

/-- A completed step begins a longer run. -/
theorem run_succ_of_next {M : Host.Core} {s u : M.State} (n : Nat) (h : M.step s = .next u) :
    M.run (n + 1) s = M.run n u := by
  rw [Host.Core.run, h]

/-- A run of `n + 1` completed steps is a completed step and a run of `n` from there. -/
theorem run_succ_eq_next {M : Host.Core} {n : Nat} {s t : M.State} (h : M.run (n + 1) s = .next t) :
    ∃ u, M.step s = .next u ∧ M.run n u = .next t := by
  rw [Host.Core.run] at h
  split at h
  · exact ⟨_, ‹_›, h⟩
  · cases h
  · cases h

/-- A run ends at one state, after one number of steps. -/
theorem EndsAfter.unique {base : Addr} {length n n' : Nat} {s t t' : State} (h : EndsAfter base length n s t)
    (h' : EndsAfter base length n' s t') : n = n' ∧ t = t' := by
  obtain ⟨hn, hr, hf, hfirst⟩ := h
  obtain ⟨hn', hr', hf', hfirst'⟩ := h'
  rcases lt_trichotomy n n' with hlt | rfl | hlt
  · exact absurd hf (hfirst' n t hn hlt hr)
  · rw [hr] at hr'
    cases hr'
    exact ⟨rfl, rfl⟩
  · exact absurd hf' (hfirst n' t' hn' hlt hr')

/-- A safe run completes a step: where the first step faults or is refused, the run is not final. -/
theorem SafeRun.completes_first_step {base : Addr} {program : List Byte} {s : State} (h : SafeRun base program s) :
    ∃ t, step s = .next t := by
  obtain ⟨-, n, t, hn, hr, -, -⟩ := h
  obtain ⟨m, rfl⟩ := Nat.exists_eq_add_of_lt hn
  rw [Nat.zero_add] at hr
  obtain ⟨u, hu, -⟩ := run_succ_eq_next hr
  exact ⟨u, hu⟩

end Sys2Proof.Machine
end

