-- ==== Sys2Proof/Machine/Exceptions.lean ====
section
/-! DEFINITION. The architectural exceptions of class E4.nb as the spec recalls them (60_exceptions.md R94, R95), and
which of them a fault of the model stands for (R96 to R98). UNVERIFIED (entry 24), unsafe to rely on: the cited table is
not among the spec's sources, and no step reads this file. -/

namespace Sys2Proof.Machine

/-- The exceptions of 60_exceptions.md R94. -/
inductive ArchException where
  /-- `#UD`, Invalid Opcode. -/
  | ud
  /-- `#NM`, Device Not Available. -/
  | nm
  /-- `#SS(0)`, Stack. -/
  | ss
  /-- `#GP(0)`, General Protection. -/
  | gp
  /-- `#PF(fault-code)`, Page Fault. -/
  | pf
  /-- `#AC(0)`, Alignment Check; whether it applies is not recalled (U6). -/
  | ac
deriving DecidableEq, Repr

/-- What an exception pushes as its error code (60_exceptions.md R94). -/
inductive ErrorCode where
  | none
  | zero
  | pageFault
deriving DecidableEq, Repr

/-- The vector number (60_exceptions.md R94). -/
def ArchException.vector : ArchException → Nat
  | .ud => 6
  | .nm => 7
  | .ss => 12
  | .gp => 13
  | .pf => 14
  | .ac => 17

/-- The error code (60_exceptions.md R94). -/
def ArchException.errorCode : ArchException → ErrorCode
  | .ud => .none
  | .nm => .none
  | .ss => .zero
  | .gp => .zero
  | .pf => .pageFault
  | .ac => .zero

/-- Whether the exception records the faulting linear address in CR2 (60_exceptions.md R94). -/
def ArchException.recordsCr2 : ArchException → Bool
  | .pf => true
  | _ => false

/-- Whether only a memory form can raise the exception (60_exceptions.md R94). -/
def ArchException.memoryFormsOnly : ArchException → Bool
  | .ud => false
  | .nm => false
  | _ => true

/-- The exceptions a fault of the model may stand for (60_exceptions.md R96, R97, R98). -/
def Fault.standsFor : Fault → List ArchException
  | .invalidOpcode _ => [.ud]
  | .deviceNotAvailable _ => [.nm]
  | .memFault _ _ _ => [.ss, .gp, .pf, .ac]

/-- The instruction address a fault records (60_exceptions.md R99). -/
def Fault.pc : Fault → Addr
  | .invalidOpcode pc => pc
  | .deviceNotAvailable pc => pc
  | .memFault pc _ _ => pc

end Sys2Proof.Machine
end

