-- ==== Sys2Proof/Tests/Slice0.lean ====
section
/-! SUPPORT. The model's own tests. Expected values are the spec's: 95_test_vectors.md (encodings E1 to E14, refusals X1 to
X15, programs P1 to P5) and the examples of 40_vpcmpb_vpcmpub.md R77 to R82. The last section shows, for each statement
with hypotheses, concrete operands and states that meet them. -/

namespace Sys2Proof.Tests

open Sys2Proof.Machine

set_option maxRecDepth 20000
set_option exponentiation.threshold 600

/-! ### Helpers -/

def ops (kd : KReg) (kw : Option KReg) (vs1 : VReg) (src2 : Src2) (imm8 : Byte) : Operands :=
  { kd := kd, kw := kw, vs1 := vs1, src2 := src2, imm8 := imm8 }

/-- The instruction a byte string decodes to under the default policy. -/
def dec (bs : List Byte) : Option Instr :=
  match decode .refuse bs with
  | .ok (i, []) => some i
  | _ => none

/-- The reason a byte string is refused for. -/
def reason (policy : ImmPolicy) (bs : List Byte) : Option DecodeReason :=
  match decode policy bs with
  | .error r => some r
  | _ => none

def nextOf (o : Host.Outcome State Fault Refusal) : Option State :=
  match o with
  | .next t => some t
  | _ => none

def faultOf (o : Host.Outcome State Fault Refusal) : Option Fault :=
  match o with
  | .fault f => some f
  | _ => none

def refusalOf (o : Host.Outcome State Fault Refusal) : Option Refusal :=
  match o with
  | .refused r => some r
  | _ => none

def setV (s : State) (n : VReg) (a : Vec) : State := { s with v := s.v.set n a }

def setX (s : State) (n : GReg) (a : Word) : State := { s with x := s.x.set n a }

def setLaunch (s : State) (l : Launch) : State := { s with launch := l }

/-- The sources of 95_test_vectors.md, sections 2 and 3. -/
def srcA : Vec := 0xF0E0D0C040302010007F80FF807F0100
def srcB : Vec := 0x0FE0C0D040311F10FF7E80FF7F800200
def srcS1 : Vec :=
  0x2601DCB7926D4823FED9B48F6A4520FBD6B18C67421DF8D3AE89643F1AF5D0AB86613C17F2CDA8835E3914EFCAA5805B3611ECC7A27D58330EE9C49F7A55300B
def srcS2 : Vec :=
  0xDCF91633506D8AA7C4E1FE1B3855728FACC9E603203D5A7794B1CEEB0825425F7C99B6D3F00D2A4764819EBBD8F5122F4C6986A3C0DDFA1734516E8BA8C5E2FF

/-- A launch at `0x400000` with the given bytes there and the two sources in vector registers 1 and 2. -/
def launched (bytes : List Byte) (a b : Vec) : State :=
  setV (setV (placeAtPc (State.reset.setPc 0x400000) bytes) 1 a) 2 b

/-! ### Well-formedness: each check refuses an ill-formed term -/

theorem test_wf_k0_is_no_writemask : (ops 1 (some 0) 1 (.reg 2) 0).wellFormed = false := by decide
theorem test_wf_base_rsp_needs_sib : (MemOperand.base 4 (.d8 1)).wellFormed = false := by decide
theorem test_wf_base_r12_needs_sib : (MemOperand.base 12 .none).wellFormed = false := by decide
theorem test_wf_base_rbp_needs_disp : (MemOperand.base 5 .none).wellFormed = false := by decide
theorem test_wf_sib_base_r13_needs_disp : (MemOperand.sib 13 ⟨0, none⟩ .none).wellFormed = false := by decide
theorem test_wf_rsp_is_no_index : (MemOperand.sib 0 ⟨0, some 4⟩ .none).wellFormed = false := by decide
theorem test_wf_no_base_rsp_is_no_index : (MemOperand.sibNoBase ⟨3, some 4⟩ 0).wellFormed = false := by decide
theorem test_wf_instr_checks_operands :
    (Instr.vpcmpub256 (ops 1 none 1 (.mem (.base 4 .none)) 0)).wellFormed = false := by decide
theorem test_wf_reserved_imm : immAdmitted .refuse 8 = false ∧ immAdmitted .ignore 8 = true := by decide
theorem test_wf_accepts_r12_index : (MemOperand.sib 4 ⟨2, some 12⟩ .none).wellFormed = true := by decide

/-! ### Decoding: 95_test_vectors.md section 4, E1 to E14 -/

theorem test_decode_E1 : dec [0x62, 0xF3, 0x75, 0x48, 0x3F, 0xCA, 0x00] =
    some (.vpcmpb512 (ops 1 none 1 (.reg 2) 0)) := by decide
theorem test_decode_E2 : dec [0x62, 0xF3, 0x7D, 0x48, 0x3F, 0xC1, 0x04] =
    some (.vpcmpb512 (ops 0 none 0 (.reg 1) 4)) := by decide
theorem test_decode_E3 : dec [0x62, 0x93, 0x05, 0x47, 0x3E, 0xEE, 0x06] =
    some (.vpcmpub512 (ops 5 (some 7) 31 (.reg 30) 6)) := by decide
theorem test_decode_E4 : dec [0x62, 0xF3, 0x5D, 0x0B, 0x3F, 0xD5, 0x01] =
    some (.vpcmpb128 (ops 2 (some 3) 4 (.reg 5) 1)) := by decide
theorem test_decode_E5 : dec [0x62, 0xD3, 0x7D, 0x20, 0x3E, 0xF8, 0x02] =
    some (.vpcmpub256 (ops 7 none 16 (.reg 8) 2)) := by decide
theorem test_decode_E6 : dec [0x62, 0xF3, 0x6D, 0x08, 0x3E, 0x18, 0x00] =
    some (.vpcmpub128 (ops 3 none 2 (.mem (.base 0 .none)) 0)) := by decide
theorem test_decode_E7 : dec [0x62, 0xF3, 0x7D, 0x29, 0x3F, 0x4B, 0x02, 0x05] =
    some (.vpcmpb256 (ops 1 (some 1) 0 (.mem (.base 3 (.d8 2))) 5)) := by decide
theorem test_decode_E8 : dec [0x62, 0xF3, 0x65, 0x48, 0x3F, 0x64, 0x8C, 0x40, 0x07] =
    some (.vpcmpb512 (ops 4 none 3 (.mem (.sib 4 ⟨2, some 1⟩ (.d8 0x40))) 7)) := by decide
theorem test_decode_E9 : dec [0x62, 0x93, 0x35, 0x4A, 0x3E, 0x74, 0xF5, 0xFF, 0x03] =
    some (.vpcmpub512 (ops 6 (some 2) 9 (.mem (.sib 13 ⟨3, some 14⟩ (.d8 0xFF))) 3)) := by decide
theorem test_decode_E10 : dec [0x62, 0xF3, 0x7D, 0x08, 0x3F, 0x0D, 0x00, 0x01, 0x00, 0x00, 0x00] =
    some (.vpcmpb128 (ops 1 none 0 (.mem (.ripRel 0x100)) 0)) := by decide
theorem test_decode_E11 : dec [0x62, 0xF3, 0x75, 0x28, 0x3E, 0x55, 0x00, 0x01] =
    some (.vpcmpub256 (ops 2 none 1 (.mem (.base 5 (.d8 0))) 1)) := by decide
theorem test_decode_E12 : dec [0x62, 0xF3, 0x75, 0x08, 0x3F, 0x88, 0x08, 0x00, 0x00, 0x00, 0x00] =
    some (.vpcmpb128 (ops 1 none 1 (.mem (.base 0 (.d32 8))) 0)) := by decide
theorem test_decode_E13 : dec [0x62, 0xF3, 0x75, 0x48, 0x3F, 0x0C, 0x25, 0x00, 0x20, 0x00, 0x00, 0x00] =
    some (.vpcmpb512 (ops 1 none 1 (.mem (.sibNoBase ⟨0, none⟩ 0x2000)) 0)) := by decide
theorem test_decode_E14 : dec [0x62, 0xD3, 0x75, 0x48, 0x3F, 0x0C, 0x24, 0x00] =
    some (.vpcmpb512 (ops 1 none 1 (.mem (.sib 12 ⟨0, none⟩ .none)) 0)) := by decide

/-- X1 to X15 of 95_test_vectors.md. -/
theorem test_refused_encodings :
    reason .refuse [0x62, 0xF3, 0x75, 0x48, 0x3F, 0xCA, 0x08] = some .reservedImmBits ∧
    reason .refuse [0x62, 0xF3, 0x75, 0x48, 0x3F, 0xCA, 0xFD] = some .reservedImmBits ∧
    reason .ignore [0x62, 0xF3, 0x75, 0x48, 0x3F, 0xCA, 0xFD] = none ∧
    reason .refuse [0x62, 0xF3, 0x75, 0xC8, 0x3F, 0xCA, 0x00] = some .zSet ∧
    reason .refuse [0x62, 0xF3, 0x75, 0x58, 0x3F, 0xCA, 0x00] = some .bSet ∧
    reason .refuse [0x62, 0xF3, 0x75, 0x68, 0x3F, 0xCA, 0x00] = some .badVectorLength ∧
    reason .refuse [0x62, 0xF3, 0xF5, 0x48, 0x3F, 0xCA, 0x00] = some .w1OtherInstruction ∧
    reason .refuse [0x62, 0x73, 0x75, 0x48, 0x3F, 0xCA, 0x00] = some .maskRegExtension ∧
    reason .refuse [0x62, 0xE3, 0x75, 0x48, 0x3F, 0xCA, 0x00] = some .maskRegExtension ∧
    reason .refuse [0x62, 0xF7, 0x75, 0x48, 0x3F, 0xCA, 0x00] = some .reservedPrefixBits ∧
    reason .refuse [0x62, 0xF3, 0x71, 0x48, 0x3F, 0xCA, 0x00] = some .reservedPrefixBits ∧
    reason .refuse [0x62, 0xF3, 0x74, 0x48, 0x3F, 0xCA, 0x00] = some .notThisInstruction ∧
    reason .refuse [0x62, 0xF2, 0x75, 0x48, 0x3F, 0xCA, 0x00] = some .notThisInstruction ∧
    reason .refuse [0x62, 0xF3, 0x75, 0x48, 0x3D, 0xCA, 0x00] = some .notThisInstruction ∧
    reason .refuse [0x66, 0x62, 0xF3, 0x75, 0x48, 0x3F, 0xCA, 0x00] = some .notThisInstruction ∧
    reason .refuse [0x62, 0xB3, 0x6D, 0x08, 0x3E, 0x18, 0x00] = some .unusedXorB := by decide

/-- E8 and E13, encoded. -/
theorem test_encode_E8 : encode (.vpcmpb512 (ops 4 none 3 (.mem (.sib 4 ⟨2, some 1⟩ (.d8 0x40))) 7)) =
    [0x62, 0xF3, 0x65, 0x48, 0x3F, 0x64, 0x8C, 0x40, 0x07] := by decide
theorem test_encode_E13 : encode (.vpcmpb512 (ops 1 none 1 (.mem (.sibNoBase ⟨0, none⟩ 0x2000)) 0)) =
    [0x62, 0xF3, 0x75, 0x48, 0x3F, 0x0C, 0x25, 0x00, 0x20, 0x00, 0x00, 0x00] := by decide

/-- E4 as a table word of 56 bits, byte 0 in bits 7:0. -/
theorem test_table_word_E4 : decodeTableWord 56 0x01D53F0B5DF362 =
    some (.vpcmpb128 (ops 2 (some 3) 4 (.reg 5) 1)) := by decide

/-- The first five bytes of E4 as a 40-bit number, byte 0 most significant as in 30_encoding.md R60, zeros after them:
ModRM 00 is `[rax]`. -/
theorem test_table_word_match_order : decodeTableWord 40 0x62F35D0B3F =
    some (.vpcmpb128 (ops 0 (some 3) 4 (.mem (.base 0 .none)) 0)) := by decide

/-! ### One step: the examples of 40_vpcmpb_vpcmpub.md R77 to R82 and the programs P1 to P5 -/

theorem test_step_vpcmpb128_R77 :
    (nextOf (step (launched [0x62, 0xF3, 0x75, 0x08, 0x3F, 0xCA, 0x01] srcA srcB))).map
      (fun t => (t.kreg 1, t.pc)) = some (0x940A, 0x400007) := by decide
theorem test_step_vpcmpb256_R78 :
    (nextOf (step (launched [0x62, 0xF3, 0x75, 0x28, 0x3F, 0xCA, 0x01] srcS1 srcS2))).map
      (fun t => t.kreg 1) = some 0x878EC8E0 := by decide
theorem test_step_vpcmpb512_R79 :
    (nextOf (step ((launched [0x62, 0xF3, 0x75, 0x4A, 0x3F, 0xCA, 0x05] srcS1 srcS2).setK 2 0xF0F0F0F00F0F0F0F))).map
      (fun t => t.kreg 1) = some 0xC08090B00801070F := by decide
theorem test_step_vpcmpub128_R80 :
    (nextOf (step (launched [0x62, 0xF3, 0x75, 0x08, 0x3E, 0xCA, 0x01] srcA srcB))).map
      (fun t => t.kreg 1) = some 0x1486 := by decide
theorem test_step_vpcmpub256_R81 :
    (nextOf (step (launched [0x62, 0xF3, 0x75, 0x28, 0x3E, 0xCA, 0x06] srcS1 srcS2))).map
      (fun t => t.kreg 1) = some 0x8F133170 := by decide
theorem test_step_vpcmpub512_R82 :
    (nextOf (step (launched [0x62, 0xF3, 0x75, 0x48, 0x3E, 0xCA, 0x02] srcS1 srcS2))).map
      (fun t => t.kreg 1) = some 0xC766647070ECCE8F := by decide

/-- The memory of P2: `B` at `0x10000` and the second operand at `0x10010`. -/
def memP2 : Memory :=
  Memory.storeBytes [] 0x10000
    [0x00, 0x02, 0x80, 0x7F, 0xFF, 0x80, 0x7E, 0xFF, 0x10, 0x1F, 0x31, 0x40, 0xD0, 0xC0, 0xE0, 0x0F,
     0x00, 0x00, 0xFF, 0xFF, 0xFE, 0x7F, 0xFF, 0xFF, 0x0F, 0xFF, 0xFF, 0x41, 0xFF, 0xFF, 0xDF, 0xFF]

/-- The state before an instruction of P2 at `pc`, with `size` bytes admitted from `0x10000` on. -/
def stateP2 (pc : Addr) (size : Nat) (k3 : Mask) (bytes : List Byte) : State :=
  let s := setX (setV { State.reset with mem := memP2, pc := pc } 2 (srcA + 0xF <<< 128)) 0 0x10000
  placeAtPc (setLaunch (s.setK 3 k3) { Launch.reset with admitted := [⟨0x10000, size⟩] }) bytes

theorem test_step_vpcmpb128_P2 :
    (nextOf (step (stateP2 0x400000 32 0xFFFF [0x62, 0xF3, 0x6D, 0x08, 0x3F, 0x18, 0x00]))).map
      (fun t => (t.kreg 3, t.pc)) = some (0x4931, 0x400007) := by decide
theorem test_step_vpcmpub128_P2 :
    (nextOf (step (stateP2 0x400007 32 0x4931 [0x62, 0xF3, 0x6D, 0x0B, 0x3E, 0x60, 0x01, 0x06]))).map
      (fun t => (t.kreg 4, t.pc)) = some (0x4130, 0x40000F) := by decide
/-- P5: the last byte, of a masked-off element, is refused. -/
theorem test_step_P5_faults :
    faultOf (step (stateP2 0x400007 31 0x4931 [0x62, 0xF3, 0x6D, 0x0B, 0x3E, 0x60, 0x01, 0x06])) =
      some (.memFault 0x400007 0x10010 16) := by decide
/-- P3, second instruction: the destination is the writemask. -/
theorem test_step_vpcmpub256_P3 :
    (nextOf (step ((launched [0x62, 0xF3, 0x75, 0x29, 0x3E, 0xCA, 0x02]
      0x607B7A79782033323130206275706D6370762021646C726F57202C6F6C6C6548
      0x7A7A7A7A7A7A7A7A7A7A7A7A7A7A7A7A7A7A7A7A7A7A7A7A7A7A7A7A7A7A7A7A).setK 1 0x781FCF1E))).map
      (fun t => t.kreg 1) = some 0x381FCF1E := by decide
/-- P4, first instruction: TRUE copies the writemask. -/
theorem test_step_vpcmpb512_P4 :
    (nextOf (step ((launched [0x62, 0xF3, 0x7D, 0x49, 0x3F, 0xE8, 0x07] 0 0).setK 1 0x123456789ABCDEF0))).map
      (fun t => t.kreg 5) = some 0x123456789ABCDEF0 := by decide
/-- P1, first instruction, with its sources in registers 1 and 2. -/
theorem test_step_vpcmpub512_P1 :
    (nextOf (step (launched [0x62, 0xF3, 0x75, 0x48, 0x3E, 0xCA, 0x01] srcS1 srcS2))).map
      (fun t => t.kreg 1) = some 0xC366647070ECCE8F := by decide

/-- The feature vectors of 95_test_vectors.md section 4: E4 without AVX512VL. -/
theorem test_step_E4_without_avx512vl :
    faultOf (step (setLaunch (launched [0x62, 0xF3, 0x5D, 0x0B, 0x3F, 0xD5, 0x01] 0 0)
      { Launch.reset with avx512vl := false })) = some (.invalidOpcode 0x400000) := by decide

/-- The effective address of E9, `x[13] + x[14]*8 - 64`. -/
theorem test_effAddr_E9 :
    effAddr .v512 9 (.sib 13 ⟨3, some 14⟩ (.d8 0xFF)) (setX (setX State.reset 13 0x1000) 14 2) = 0xFD0 := by decide
/-- The effective address of E10, `pc + 11 + 0x100`. -/
theorem test_effAddr_E10 : effAddr .v128 11 (.ripRel 0x100) (State.reset.setPc 0x400000) = 0x40010B := by decide

/-- The page's lane loop agrees with the table of 95_test_vectors.md section 2 (VPCMPB, LE, writemask `..00F0`). -/
theorem test_lane_loop_le :
    vpcmpByLoop .signed 16 .le (some 0xFFFFFFFFFFFF00F0) srcA srcB 0xFFFFFFFFFFFFFFFF = 0x30 := by decide

/-! ### Assembler level -/

/-- E3 of 95_test_vectors.md as text. -/
theorem test_text_E3 :
    (lineOf (.vpcmpub512 (ops 5 (some 7) 31 (.reg 30) 6))).text.toList =
      ['V', 'P', 'C', 'M', 'P', 'U', 'B', ' ', 'k', '5', ' ', Char.ofNat 0x7B, 'k', '7', Char.ofNat 0x7D, ',', ' ',
        'z', 'm', 'm', '3', '1', ',', ' ', 'z', 'm', 'm', '3', '0', ',', ' ', '6'] := by decide
theorem test_pseudo_name : (Mnemonic.pseudo .nlt .unsigned).text = "VPCMPNLTUB" := by decide
theorem test_intrinsic_name : (Intrinsic.mk .unsigned .v256 true (some .ge)).name = "_mm256_mask_cmpge_epu8_mask" := by
  decide

/-! ### Witnesses: operands and states that meet the hypotheses of each statement -/

open Sys2Proof.Claims

/-- Whether an instruction completes: the form in which a witness of `exec i s = .next t` is decided. -/
theorem exists_next {i : Instr} {s : State} (h : (nextOf (exec i s)).isSome = true) : ∃ t, exec i s = .next t := by
  cases he : exec i s with
  | next t => exact ⟨t, rfl⟩
  | fault f => rw [he] at h; cases h
  | refused r => rw [he] at h; cases h

/-- E8, the longest kind of base-and-index form; E13, twelve bytes; and one register form. -/
def iE8 : Instr := .vpcmpb512 (ops 4 none 3 (.mem (.sib 4 ⟨2, some 1⟩ (.d8 0x40))) 7)
def iE13 : Instr := .vpcmpb512 (ops 1 none 1 (.mem (.sibNoBase ⟨0, none⟩ 0x2000)) 0)
def iReg : Instr := .vpcmpub128 (ops 1 (some 2) 1 (.reg 2) 2)
def iChain : Instr := .vpcmpb256 (ops 3 (some 1) 1 (.reg 2) 4)

/-- Sources in registers 1 and 2, a writemask in k2, and `pc` at `0x400000`. -/
def sData : State := (launched [] srcA srcB).setK 2 0xAAAA

/-- A state at the last `pc` from which seven bytes do not pass the top of the address space. -/
def sTop : State := sData.setPc 0xFFFFFFFFFFFFFFF8

theorem witness_DecodeOfEncodeIsTheInstruction :
    iE8.wellFormed = true ∧ immAdmitted .refuse iE8.operands.imm8 = true ∧
    iE13.wellFormed = true ∧ immAdmitted .refuse iE13.operands.imm8 = true := by decide

theorem witness_AcceptedBytesAreTheEncoding :
    decode .refuse [0x62, 0x93, 0x35, 0x4A, 0x3E, 0x74, 0xF5, 0xFF, 0x03, 0x90] =
      .ok (.vpcmpub512 (ops 6 (some 2) 9 (.mem (.sib 13 ⟨3, some 14⟩ (.d8 0xFF))) 3), [0x90]) := rfl

theorem witness_EncodingLengthFromModrmAndSib :
    iE13.wellFormed = true ∧ 6 < (encode iE13).length ∧ iReg.wellFormed = true ∧ 6 < (encode iReg).length := by decide

theorem witness_AcceptedBytesMatchTheRowPattern :
    decode .ignore [0x62, 0xF3, 0x75, 0x48, 0x3F, 0xCA, 0xFD] =
      .ok (.vpcmpb512 (ops 1 none 1 (.reg 2) 0xFD), []) := rfl

theorem witness_ChangedFixedFieldIsRefusedByName :
    (0x61#8 ≠ 0x62#8 ∧ 2 < 3 ∧ 0 < 4 ∧ 3 < 4 ∧ 3 ≠ 1) ∧ 0x3D#8 ≠ 0x3E#8 ∧ 0x3D#8 ≠ 0x3F#8 := by decide

theorem witness_UnusedExtensionBitIsRefused :
    (Instr.vpcmpb128 (ops 1 none 0 (.mem (.ripRel 0x100)) 0)).wellFormed = true ∧
    (Instr.vpcmpub256 (ops 2 none 1 (.mem (.base 13 (.d8 0))) 1)).wellFormed = true ∧ iE13.wellFormed = true := by
  decide

theorem witness_ReservedImmediateBitsFollowThePolicy :
    (withImm8 iE8 8).wellFormed = true ∧ 8 ≤ (withImm8 iE8 8).operands.imm8.toNat ∧
    8 ≤ (withImm8 iE8 0xFF).operands.imm8.toNat := by decide

theorem witness_StepRunsTheDecodedInstruction :
    let s := launched [0x62, 0xF3, 0x75, 0x48, 0x3F, 0xCA, 0x00] 0 0
    decode s.launch.immPolicy (fetchWindow s) = .ok (.vpcmpb512 (ops 1 none 1 (.reg 2) 0), [0, 0, 0, 0, 0]) := rfl

theorem witness_StepRunsTheEncodingAtPc :
    let s := launched (encode iE8) 0 0
    iE8.wellFormed = true ∧ immAdmitted s.launch.immPolicy iE8.operands.imm8 = true ∧
      holdsBytes s.mem s.pc (encode iE8) :=
  ⟨by decide, by decide, by unfold holdsBytes; decide⟩

theorem witness_StepRefusesOtherModesAndUndecodedBytes :
    (setLaunch State.reset { Launch.reset with mode := .compatibility }).launch.mode ≠ .bits64 ∧
    (State.reset.launch.mode = .bits64 ∧
      decode State.reset.launch.immPolicy (fetchWindow State.reset) = .error .notThisInstruction) :=
  ⟨by decide, rfl, rfl⟩

theorem witness_PlacedWordIsTheNextInstruction :
    sData.mem.wf = true ∧ sData.launch.immPolicy = ImmPolicy.default ∧
      decodeTableWord 56 0x01D53F0B5DF362 = some (.vpcmpb128 (ops 2 (some 3) 4 (.reg 5) 1)) := by decide

/-- Both ends of the range of `pc`: the last one that does not pass the top. -/
theorem witness_ready (vl : VLen) : Ready vl 7 sTop ∧ Ready vl 12 sData := by
  refine ⟨⟨⟨rfl, rfl, .inr rfl, rfl, ⟨rfl, rfl, rfl, rfl, rfl⟩, rfl⟩, by decide⟩,
    ⟨⟨rfl, rfl, .inr rfl, rfl, ⟨rfl, rfl, rfl, rfl, rfl⟩, rfl⟩, by decide⟩⟩

/-- A memory operand at `0` whose window of admitted bytes is exactly the operand. -/
theorem witness_src2Admitted (vl : VLen) :
    Src2Admitted vl (.mem (.base 0 .none)) (setLaunch sData { Launch.reset with admitted := [⟨0, width vl⟩] }) := by
  intro m hm
  cases hm
  cases vl <;> decide

theorem witness_VpcmpbRowsCompleteWithSignedComparison :
    let o := ops 1 (some 2) 1 (.reg 2) 2
    (Ready .v128 o.src2.instrLength sTop ∧ Src2Admitted .v128 o.src2 sTop) ∧
    (Ready .v256 o.src2.instrLength sTop ∧ Src2Admitted .v256 o.src2 sTop) ∧
    (Ready .v512 o.src2.instrLength sTop ∧ Src2Admitted .v512 o.src2 sTop) :=
  ⟨⟨(witness_ready _).1, fun _ h => nomatch h⟩, ⟨(witness_ready _).1, fun _ h => nomatch h⟩,
    ⟨(witness_ready _).1, fun _ h => nomatch h⟩⟩

theorem witness_VpcmpubRowsCompleteWithUnsignedComparison (vl : VLen) :
    Ready vl (Src2.mem (.base 0 .none)).instrLength (setLaunch sTop { Launch.reset with admitted := [⟨0, width vl⟩] }) ∧
      Src2Admitted vl (.mem (.base 0 .none)) (setLaunch sTop { Launch.reset with admitted := [⟨0, width vl⟩] }) :=
  ⟨⟨⟨rfl, rfl, .inr rfl, rfl, ⟨rfl, rfl, rfl, rfl, rfl⟩, rfl⟩, by cases vl <;> decide⟩,
    fun m hm => by cases hm; cases vl <;> decide⟩

theorem witness_CompletedInstructionWritesOnlyDestinationAndPc : ∃ t, exec iReg sData = .next t :=
  exists_next (by decide)

theorem witness_ResultIsThePagesLaneLoop :
    (∃ t, exec iReg sData = .next t) ∧ 15 < width .v128 ∧ element srcA 15 = element (srcA + 1) 15 ∧
      element srcB 15 = element srcB 15 ∧
      ((some 0x8000#64).all (fun x => x.getLsbD 15) = (none : Option Mask).all fun x => x.getLsbD 15) :=
  ⟨exists_next (by decide), by decide⟩

theorem witness_MaskedOffLanesAreZeroAndIgnored :
    ((∃ t, exec iReg sData = .next t) ∧ iReg.operands.kw = some 2 ∧ (sData.kreg 2).getLsbD 0 = false) ∧
    (3 < [0x62#8, 0xF3, 0x75, 0x48, 0x3F, 0xCA, 0x00].length ∧
      decode .refuse [0x62, 0xF3, 0x75, 0x48, 0x3F, 0xCA, 0x00] =
        .ok (.vpcmpb512 (ops 1 none 1 (.reg 2) 0), [])) ∧
    ((∃ t, exec iReg (setV sData 1 (srcA + 1)) = .next t) ∧ (setV sData 1 (srcA + 1)).k = sData.k ∧
      ∀ j < width iReg.vlen, laneEnabled iReg.operands.kw sData j →
        element ((setV sData 1 (srcA + 1)).vreg 1) j = element (sData.vreg 1) j ∧
        secondElement iReg.vlen iReg.operands.src2 (setV sData 1 (srcA + 1)) j =
          secondElement iReg.vlen iReg.operands.src2 sData j) := by
  refine ⟨⟨exists_next (by decide), rfl, by decide⟩, ⟨by decide, rfl⟩, exists_next (by decide), rfl, ?_⟩
  intro j hj he
  have hm : (sData.kreg 2).getLsbD j = true := he 2 rfl
  have all : ∀ j < 16, (sData.kreg 2).getLsbD j = true →
      element ((setV sData 1 (srcA + 1)).vreg 1) j = element (sData.vreg 1) j := by decide
  exact ⟨all j hj hm, rfl⟩

theorem witness_UpperDestinationBitsAreZeroAndOldValueIsLost :
    (∃ t, exec (.vpcmpb128 (ops 1 none 1 (.reg 2) 7)) sData = .next t) ∧
    (∃ t, exec (.vpcmpub128 (ops 1 none 1 (.reg 2) 7)) sData = .next t) ∧
    (∃ t, exec (.vpcmpb256 (ops 1 none 1 (.reg 2) 7)) sData = .next t) ∧
    (∃ t, exec (.vpcmpub256 (ops 1 none 1 (.reg 2) 7)) sData = .next t) ∧
    (∃ t, exec iReg sData = .next t) ∧ iReg.operands.kw ≠ some iReg.operands.kd :=
  ⟨exists_next (by decide), exists_next (by decide), exists_next (by decide), exists_next (by decide),
    exists_next (by decide), by decide⟩

theorem witness_CornerCasesOfTheRows :
    ((∃ t, exec (.vpcmpub256 (ops 2 (some 2) 1 (.reg 2) 7)) sData = .next t) ∧
      (∃ t, exec (.vpcmpub256 (ops 2 (some 2) 1 (.reg 2) 7)) sData = .next t ∧ (t.kreg 2).getLsbD 15 = true)) ∧
    (∃ t, exec (.vpcmpb512 (ops 1 none 2 (.reg 2) 2)) sData = .next t) ∧
    (predNumber 3 = 3 ∧ ∃ t, exec (.vpcmpb128 (ops 1 none 1 (.reg 2) 3)) sData = .next t) ∧
    (predNumber 0xFF = 7 ∧ ∃ t, exec (.vpcmpb128 (ops 1 (some 2) 1 (.reg 2) 0xFF)) sData = .next t) ∧
    ((sData.kreg 3).toNat % 2 ^ width .v512 = 0 ∧
      ∃ t, exec (.vpcmpub512 (ops 1 (some 3) 1 (.reg 2) 7)) sData = .next t) := by
  refine ⟨⟨exists_next (by decide), ?_⟩, exists_next (by decide), ⟨by decide, exists_next (by decide)⟩,
    ⟨by decide, exists_next (by decide)⟩, by decide, exists_next (by decide)⟩
  have h : (nextOf (exec (.vpcmpub256 (ops 2 (some 2) 1 (.reg 2) 7)) sData)).any
      (fun t => (t.kreg 2).getLsbD 15) = true := by decide
  cases he : exec (.vpcmpub256 (ops 2 (some 2) 1 (.reg 2) 7)) sData with
  | next t => rw [he] at h; exact ⟨t, rfl, h⟩
  | fault f => rw [he] at h; cases h
  | refused r => rw [he] at h; cases h

/-- The 128-bit row on states that differ in bit 128 of the source and bit 16 of the writemask, the first ignored ones. -/
theorem witness_HigherSourceAndMaskBitsAreIgnored :
    let s' := (setV sData 1 (srcA + 1 <<< 128)).setK 2 0x1AAAA
    s'.x = sData.x ∧ s'.mem = sData.mem ∧ s'.pc = sData.pc ∧ s'.launch = sData.launch ∧
      (∀ j < width iReg.vlen, element (s'.vreg 1) j = element (sData.vreg 1) j ∧
        (∀ n, iReg.operands.src2 = .reg n → element (s'.vreg n) j = element (sData.vreg n) j) ∧
        ∀ n, iReg.operands.kw = some n → (s'.kreg n).getLsbD j = (sData.kreg n).getLsbD j) ∧
      ∃ t, exec iReg sData = .next t := by
  refine ⟨rfl, rfl, rfl, rfl, ?_, exists_next (by decide)⟩
  have hv : ∀ j < 16, element (((setV sData 1 (srcA + 1 <<< 128)).setK 2 0x1AAAA).vreg 1) j =
      element (sData.vreg 1) j := by decide
  have hk : ∀ j < 16, (((setV sData 1 (srcA + 1 <<< 128)).setK 2 0x1AAAA).kreg 2).getLsbD j =
      (sData.kreg 2).getLsbD j := by decide
  intro j hj
  refine ⟨hv j hj, ?_, ?_⟩
  · intro n hn; cases hn; rfl
  · intro n hn; cases hn; exact hk j hj

/-- The same, where both states fault in the operand fetch and where both are refused. -/
theorem witness_HigherSourceAndMaskBitsAreIgnored_stops :
    faultOf (exec iE8 (setLaunch sData { Launch.reset with admitted := [] })) = some (.memFault 0x400000 0x1000 64) ∧
    refusalOf (exec iReg (sData.setPc 0xFFFFFFFFFFFFFFF9)) = some (.ipWrap 0xFFFFFFFFFFFFFFF9) := by decide

theorem witness_ResultIsVisibleAsTheNextWritemask :
    iChain.operands.kw = some iReg.operands.kd ∧
      ∃ t u u', exec iReg sData = .next t ∧ exec iChain t = .next u ∧ exec (withoutMask iChain) t = .next u' := by
  refine ⟨rfl, ?_⟩
  have h : (nextOf (exec iReg sData)).any (fun t => (nextOf (exec iChain t)).isSome &&
      (nextOf (exec (withoutMask iChain) t)).isSome) = true := by decide
  cases he : exec iReg sData with
  | next t =>
    rw [he] at h
    have h' := Bool.and_eq_true_iff.mp h
    obtain ⟨u, hu⟩ := exists_next h'.1
    obtain ⟨u', hu'⟩ := exists_next h'.2
    exact ⟨t, u, u', rfl, hu, hu'⟩
  | fault f => rw [he] at h; cases h
  | refused r => rw [he] at h; cases h

theorem witness_MemReadIsLittleEndian :
    64 ≤ 64 ∧ ∀ t < 64, State.reset.memAdmit (0xFFFFFFFFFFFFFFF0 + BitVec.ofNat 64 t) = true := by decide

theorem witness_MemWriteIsReadBack :
    State.reset.mem.wf = true ∧ 16 ≤ 64 ∧
      (∀ t < 16, State.reset.memAdmit (0xFFFFFFFFFFFFFFF8 + BitVec.ofNat 64 t) = true) ∧
      ∀ t < 16, (0x8 : Addr) ≠ 0xFFFFFFFFFFFFFFF8 + BitVec.ofNat 64 t := by decide

/-- The last byte refused, and every byte admitted; and a register form. -/
theorem witness_MemoryFormFaultsExactlyWhenAByteIsRefused :
    let s := setLaunch sData { Launch.reset with admitted := [⟨0x1000, 63⟩] }
    Ready .v512 iE8.length s ∧ iE8.operands.src2 = .mem (.sib 4 ⟨2, some 1⟩ (.d8 0x40)) ∧
      s.memAdmit (effAddr .v512 iE8.length (.sib 4 ⟨2, some 1⟩ (.d8 0x40)) s + BitVec.ofNat 64 62) = true ∧
      s.memAdmit (effAddr .v512 iE8.length (.sib 4 ⟨2, some 1⟩ (.d8 0x40)) s + BitVec.ofNat 64 63) = false ∧
      Ready .v128 iReg.length s ∧ iReg.operands.src2 = .reg 2 :=
  ⟨⟨⟨rfl, rfl, .inl rfl, rfl, ⟨rfl, rfl, rfl, rfl, rfl⟩, rfl⟩, by decide⟩, rfl, by decide, by decide,
    ⟨⟨rfl, rfl, .inr rfl, rfl, ⟨rfl, rfl, rfl, rfl, rfl⟩, rfl⟩, by decide⟩, rfl⟩

/-- No AVX512BW, and a 128-bit row without AVX512VL. -/
theorem witness_ClearFeatureFlagRaisesInvalidOpcode :
    sTop.launch.mode = .bits64 ∧ sTop.pc.toNat + iReg.length < 2 ^ 64 ∧ iReg.vlen ≠ .v512 ∧
      (setLaunch sTop { Launch.reset with avx512bw := false }).launch.avx512bw = false ∧
      (setLaunch sTop { Launch.reset with avx512vl := false }).launch.avx512vl = false := by decide

/-- A state with one XCR0 bit clear and `TS` set. -/
def sNoOpmask : State := setLaunch sTop { Launch.reset with xcr0Opmask := false, ts := true }

/-- A state with `TS` set and no address admitted. -/
def sTaskSwitched : State := setLaunch sTop { Launch.reset with ts := true, admitted := [] }

theorem witness_StateNotEnabledRaises :
    (sNoOpmask.launch.mode = .bits64 ∧ sNoOpmask.pc.toNat + iReg.length < 2 ^ 64 ∧
      sNoOpmask.launch.avx512bw = true ∧ sNoOpmask.launch.avx512vl = true ∧ sNoOpmask.launch.xcr0Opmask = false) ∧
    (sTaskSwitched.launch.mode = .bits64 ∧ sTaskSwitched.pc.toNat + iReg.length < 2 ^ 64 ∧
      sTaskSwitched.launch.avx512bw = true ∧ sTaskSwitched.launch.avx512vl = true ∧
      (sTaskSwitched.launch.osxsave = true ∧ sTaskSwitched.launch.xcr0Sse = true ∧
        sTaskSwitched.launch.xcr0Avx = true ∧ sTaskSwitched.launch.xcr0Opmask = true ∧
        sTaskSwitched.launch.xcr0ZmmHi256 = true ∧ sTaskSwitched.launch.xcr0Hi16Zmm = true) ∧
      sTaskSwitched.launch.ts = true) := by decide

/-- The first `pc` that passes the top, and the last that does not. -/
theorem witness_PcPassingTheTopIsRefused :
    sTop.launch.mode = .bits64 ∧ ¬ 2 ^ 64 ≤ sTop.pc.toNat + iReg.length ∧
      2 ^ 64 ≤ (sTop.setPc 0xFFFFFFFFFFFFFFF9).pc.toNat + iReg.length := by decide

theorem witness_PseudoOpsCompareAsNamed : ∃ t, exec (.vpcmpub256 (ops 1 none 1 (.reg 2) 5)) sData = .next t :=
  exists_next (by decide)

theorem witness_IntrinsicReturnsTheInstructionResult :
    ∃ t, exec (Instr.ofForm .signed .v128
      (ops 1 (some 2) 1 (.reg 2) ((Intrinsic.mk .signed .v128 true (some .gt)).imm8 0))) sData = .next t :=
  exists_next (by decide)

theorem witness_NamedIntrinsicsCompareAsNamed :
    (Intrinsic.mk .unsigned .v256 false (some .ge)).cond = some .ge ∧ 31 < width .v256 := by decide

/-- Two instructions of P1 at `0x400000`, with the sources of section 3. -/
def programP1 : List Instr :=
  [.vpcmpub512 (ops 1 none 0 (.reg 1) 1), .vpcmpb512 (ops 2 (some 1) 0 (.reg 1) 5)]

/-- The launch of P1: its bytes are the ones 95_test_vectors.md lists. -/
def sP1 : State :=
  setV (setV (placeAtPc (State.reset.setPc 0x400000)
    [0x62, 0xF3, 0x7D, 0x48, 0x3E, 0xC9, 0x01, 0x62, 0xF3, 0x7D, 0x49, 0x3F, 0xD1, 0x05]) 0 srcS1) 1 srcS2

theorem sP1_inv : LaunchInv sP1 :=
  ⟨by decide, fun _ => ⟨rfl, rfl, .inr rfl, rfl, ⟨rfl, rfl, rfl, rfl, rfl⟩, rfl⟩, fun _ => rfl⟩

theorem sP1_steps : ∃ t, step sP1 = .next t := by
  rcases step_cases sP1 with ⟨h, -⟩ | ⟨-, r, h, -⟩ | ⟨-, i, h, e⟩
  · exact absurd rfl h
  · cases h
  · cases h
    obtain ⟨t, ht⟩ := exists_next (i := .vpcmpub512 (ops 1 none 0 (.reg 1) 1)) (s := sP1) (by decide)
    exact ⟨t, e.trans ht⟩

theorem witness_StepKeepsTheLaunchInvariant : LaunchInv sP1 ∧ ∃ t, step sP1 = .next t := ⟨sP1_inv, sP1_steps⟩

theorem witness_InvariantLeavesOnlyThreeStops : LaunchInv sP1 := sP1_inv

theorem witness_RunsWriteOnlyMasksAndAdvancePc : ∃ t, Sys2Proof.core.run 1 sP1 = .next t := by
  obtain ⟨t, h⟩ := sP1_steps
  refine ⟨t, ?_⟩
  change (match step sP1 with
    | .next s' => Host.Core.run Sys2Proof.core 0 s'
    | .fault r => .fault r
    | .refused r => .refused r) = _
  rw [h]; rfl

/-- The run of the first instruction of P1 alone is safe: it ends after its one step. -/
theorem test_safe_run_of_one_instruction : SafeRun 0x400000 [0x62, 0xF3, 0x7D, 0x48, 0x3E, 0xC9, 0x01] sP1 := by
  refine ⟨⟨rfl, by decide, by unfold holdsBytes; decide⟩, ?_⟩
  obtain ⟨t, ht⟩ := sP1_steps
  have hpc : (nextOf (step sP1)).map State.pc = some 0x400007 := by decide
  rw [ht] at hpc
  refine ⟨1, t, Nat.one_pos, run_succ_of_next 0 ht, Option.some.inj hpc, fun m u h0 h1 => ?_⟩
  omega

/-- Nothing run is no end of a run, even where `pc` already stands at the address of the end. -/
theorem test_no_step_no_end (t : State) : ¬ EndsAfter (sP1.pc - 7) 7 0 sP1 t := fun h => absurd h.1 (Nat.lt_irrefl 0)

theorem witness_StraightLineSequencesRunToTheirEnd :
    LaunchInv sP1 ∧ (∀ i ∈ programP1, i.wellFormed = true ∧ immAdmitted sP1.launch.immPolicy i.operands.imm8 = true) ∧
      (∀ a, sP1.memAdmit a = true) ∧ holdsBytes sP1.mem sP1.pc (programBytes programP1) ∧
      sP1.pc.toNat + (programBytes programP1).length < 2 ^ 64 ∧ programP1 ≠ [] := by
  refine ⟨sP1_inv, by decide, fun a => ?_, by unfold holdsBytes; decide, by decide, by decide⟩
  have h : a.toNat < 0 + 2 ^ 64 := by have := a.isLt; omega
  change (decide (0 ≤ a.toNat) && decide (a.toNat < 0 + 2 ^ 64) || false) = true
  rw [decide_eq_true h, decide_eq_true (Nat.zero_le _)]; rfl

end Sys2Proof.Tests
end

section
/-! SUPPORT. The family of 10_state.md, rules about the shared operations: the bounds of an instruction's length, what
`exec` answers for each answer of the checks and of the operand fetch (the other direction of `exec_eq_next`), and the
byte elements of a vector. -/

namespace Sys2Proof

/-! ### Length -/

theorem Disp.length_le (disp : Disp) : disp.length ≤ 4 := by cases disp <;> simp [Disp.length]

theorem Src2.extraLength_le (src2 : Src2) : src2.extraLength ≤ 5 := by
  rcases src2 with n | d | ⟨b, disp⟩ | ⟨b, index, disp⟩ | ⟨index, d⟩
  · exact Nat.zero_le 5
  · exact Nat.le_succ 4
  · exact (Disp.length_le disp).trans (Nat.le_succ 4)
  · have := Disp.length_le disp
    rw [Src2.extraLength]
    omega
  · exact le_rfl

/-- An instruction is 7 to 12 bytes long (30_encoding.md R59). -/
theorem Instr.length_bounds (i : Instr) : 7 ≤ i.length ∧ i.length ≤ 12 := by
  have := Src2.extraLength_le i.operands.src2
  rw [Instr.length, Src2.instrLength]
  omega

end Sys2Proof

namespace Sys2Proof.Machine

open Sys2Proof.Claims

/-! ### The checks -/

/-- The refusal at the top of the address space stands before every other check but the mode's (10_state.md R23). -/
theorem gate_of_pc_passes_top {vl : VLen} {len : Nat} {s : State} (hm : s.launch.mode = .bits64)
    (hp : 2 ^ 64 ≤ s.pc.toNat + len) : gate vl len s = some (.refused (.ipWrap s.pc)) := by
  rw [gate, if_neg (not_not_intro hm), if_pos hp, refuse]

theorem gate_ne_some_next {vl : VLen} {len : Nat} {s t : State} : gate vl len s ≠ some (.next t) := by
  intro h
  rcases gate_eq_some h with ⟨e, -⟩ | ⟨e, -⟩ | ⟨e, -⟩ | ⟨e, -⟩ <;> cases e

/-- The checks read `pc` and the launch's parameters only. -/
theorem gate_congr {vl : VLen} {len : Nat} {s s' : State} (hpc : s'.pc = s.pc) (hl : s'.launch = s.launch) :
    gate vl len s' = gate vl len s := by
  rw [gate, gate, hpc, hl]

/-! ### `exec` from the checks and the operand fetch -/

theorem exec_of_gate_eq_some {i : Instr} {s : State} {r : Host.Outcome State Fault Refusal}
    (hg : gate i.vlen i.length s = some r) : exec i s = r := by
  rw [Instr.length] at hg
  rw [exec_eq_compareInto, compareInto, hg]

theorem exec_of_fetchSrc2_eq_error {i : Instr} {s : State} {f : Fault} (hg : gate i.vlen i.length s = none)
    (hf : fetchSrc2 i.vlen i.operands.src2 s = .error f) : exec i s = .fault f := by
  rw [Instr.length] at hg
  rw [exec_eq_compareInto, compareInto, hg, hf]
  rfl

theorem exec_of_fetchSrc2_eq_ok {i : Instr} {s : State} {b : Vec} (hg : gate i.vlen i.length s = none)
    (hb : fetchSrc2 i.vlen i.operands.src2 s = .ok b) :
    exec i s = .next ((s.setK i.operands.kd (vpcmp i.signedness i.vlen.kl (predicateOfImm i.operands.imm8)
      (fetchMask i.operands.kw s) (fetchSrc1 i.vlen i.operands.vs1 s) b)).setPc
        (s.pc + BitVec.ofNat 64 i.length)) := by
  rw [Instr.length] at hg
  rw [exec_eq_compareInto, compareInto, hg, hb]
  rfl

/-! ### Byte elements -/

theorem width_eq_kl (vl : VLen) : width vl = vl.kl := by cases vl <;> rfl

/-- The statements' element is the machine's lane. -/
theorem element_eq_lane (a : Vec) (j : Nat) : element a j = lane a j := by
  rw [element, lane, BitVec.extractLsb', Nat.shiftRight_eq_div_pow]

theorem getLsbD_eq_lane (a : Vec) (n : Nat) : a.getLsbD n = (lane a (n / 8)).getLsbD (n % 8) := by
  rw [lane, BitVec.getLsbD_extractLsb', decide_eq_true (Nat.mod_lt n (by decide)), Bool.true_and, Nat.div_add_mod]

theorem lowBits_getLsbD (vl : VLen) (a : Vec) (n : Nat) :
    (lowBits vl a).getLsbD n = (decide (n < vl.bits) && a.getLsbD n) := by
  have hbits : vl.bits ≤ 512 := by cases vl <;> decide
  simp only [lowBits, BitVec.getLsbD_setWidth]
  by_cases hn : n < vl.bits
  · simp [hn, show n < 512 by omega]
  · simp [hn]

/-- The operand of length `VL` is fixed by its elements below the element count (10_state.md R17). -/
theorem lowBits_congr {vl : VLen} {a a' : Vec} (h : ∀ j < width vl, element a' j = element a j) :
    lowBits vl a' = lowBits vl a := by
  apply BitVec.eq_of_getLsbD_eq
  intro n _
  rw [lowBits_getLsbD, lowBits_getLsbD]
  by_cases hn : n < vl.bits
  · have hj : n / 8 < width vl := by
      rw [width_eq_kl]
      exact Nat.div_lt_div_of_lt_of_dvd (by cases vl <;> decide) hn
    rw [getLsbD_eq_lane a', getLsbD_eq_lane a, ← element_eq_lane, ← element_eq_lane, h _ hj]
  · simp [hn]

/-- The writemask in effect is fixed by the bits below the element count (10_state.md R20). -/
theorem maskLow_congr {vl : VLen} {m m' : Mask} (h : ∀ j < width vl, m'.getLsbD j = m.getLsbD j) :
    maskLow vl.kl (some m') = maskLow vl.kl (some m) := by
  apply BitVec.eq_of_getLsbD_eq
  intro j _
  rw [maskLow_getLsbD _ _ _ (VLen.kl_le vl), maskLow_getLsbD _ _ _ (VLen.kl_le vl)]
  by_cases hj : j < vl.kl
  · simp [h j (by rwa [width_eq_kl])]
  · simp [hj]

end Sys2Proof.Machine
end

section
/-! SUPPORT. O42: what a run of completed steps keeps, and how far it moves `pc`. -/

namespace Sys2Proof.Machine

/-- From `s` to `t` nothing but the mask registers and `pc` has changed, and `pc` has risen by what `n` instructions
take, 7 to 12 bytes each, without wrapping (10_state.md R15, 30_encoding.md R59). -/
structure AdvancedBy (n : Nat) (s t : State) : Prop where
  v : t.v = s.v
  x : t.x = s.x
  rflags : t.rflags = s.rflags
  mxcsr : t.mxcsr = s.mxcsr
  mem : t.mem = s.mem
  launch : t.launch = s.launch
  pc_ge : s.pc.toNat + 7 * n ≤ t.pc.toNat
  pc_le : t.pc.toNat ≤ s.pc.toNat + 12 * n

theorem AdvancedBy.refl (s : State) : AdvancedBy 0 s s := ⟨rfl, rfl, rfl, rfl, rfl, rfl, le_rfl, le_rfl⟩

theorem AdvancedBy.trans {m n : Nat} {s u t : State} (h : AdvancedBy m s u) (h' : AdvancedBy n u t) :
    AdvancedBy (m + n) s t where
  v := h'.v.trans h.v
  x := h'.x.trans h.x
  rflags := h'.rflags.trans h.rflags
  mxcsr := h'.mxcsr.trans h.mxcsr
  mem := h'.mem.trans h.mem
  launch := h'.launch.trans h.launch
  pc_ge := by have := h.pc_ge; have := h'.pc_ge; omega
  pc_le := by have := h.pc_le; have := h'.pc_le; omega

/-- A completed instruction moves `pc` by its length without wrapping: the checks have refused every other `pc`
(10_state.md R23). -/
theorem exec_next_pc_toNat {i : Instr} {s t : State} (h : exec i s = .next t) :
    t.pc.toNat = s.pc.toNat + i.length := by
  obtain ⟨b, hg, -, rfl⟩ := exec_eq_next h
  obtain ⟨-, hp, -, -⟩ := gate_eq_none.mp hg
  have := i.length_bounds
  rw [State.setPc_pc, BitVec.toNat_add, BitVec.toNat_ofNat]
  omega

theorem exec_advancedBy {i : Instr} {s t : State} (h : exec i s = .next t) : AdvancedBy 1 s t := by
  have hpc := exec_next_pc_toNat h
  have hlen := i.length_bounds
  obtain ⟨b, -, -, rfl⟩ := exec_eq_next h
  exact ⟨rfl, rfl, rfl, rfl, rfl, rfl, by omega, by omega⟩

theorem step_advancedBy {s t : State} (h : step s = .next t) : AdvancedBy 1 s t := by
  obtain ⟨i, -, hi⟩ := step_eq_next h
  exact exec_advancedBy hi

theorem run_advancedBy {n : Nat} {s t : State} (h : Sys2Proof.core.run n s = .next t) : AdvancedBy n s t := by
  induction n generalizing s with
  | zero =>
    cases h
    exact .refl _
  | succ n ih =>
    obtain ⟨u, hu, hrest⟩ := run_succ_eq_next h
    rw [Nat.add_comm]
    exact (step_advancedBy hu).trans (ih hrest)

/-- Settles O42: by induction on the number of steps, each of which advances by one instruction. -/
theorem runsWriteOnlyMasksAndAdvancePc : Obligations.RunsWriteOnlyMasksAndAdvancePc := by
  intro n s t h
  obtain ⟨hv, hx, hrf, hmx, hmem, hl, hge, hle⟩ := run_advancedBy h
  exact ⟨hv, hx, hrf, hmx, hmem, hl, hge, hle⟩

end Sys2Proof.Machine
end

section
/-! SUPPORT. O21: two states that differ only in what an instruction does not read. -/

namespace Sys2Proof.Machine

open Sys2Proof.Claims

/-- `s` and `s'` agree on everything the instruction reads: of its vector sources the elements, and of its writemask the
bits, below the element count only (10_state.md R17, R20). -/
structure AgreesOnReads (i : Instr) (s s' : State) : Prop where
  x : s'.x = s.x
  mem : s'.mem = s.mem
  pc : s'.pc = s.pc
  launch : s'.launch = s.launch
  src1 : ∀ j < width i.vlen, element (s'.vreg i.operands.vs1) j = element (s.vreg i.operands.vs1) j
  src2 : ∀ n, i.operands.src2 = .reg n → ∀ j < width i.vlen, element (s'.vreg n) j = element (s.vreg n) j
  mask : ∀ n, i.operands.kw = some n → ∀ j < width i.vlen, (s'.kreg n).getLsbD j = (s.kreg n).getLsbD j

/-- The effective address reads the general registers and `pc` only. -/
theorem effAddr_congr {vl : VLen} {len : Nat} {m : MemOperand} {s s' : State} (hx : s'.x = s.x) (hpc : s'.pc = s.pc) :
    effAddr vl len m s' = effAddr vl len m s := by
  have hreg : ∀ g, s'.xreg g = s.xreg g := fun g => by rw [State.xreg, State.xreg, hx]
  have hindex : ∀ index, indexTerm index s' = indexTerm index s := fun index => by simp only [indexTerm, hreg]
  cases m <;> simp only [effAddr, hreg, hindex, hpc]

/-- A load reads memory and the admitted windows, and its fault records `pc`. -/
theorem memRead_congr {s s' : State} (hmem : s'.mem = s.mem) (hpc : s'.pc = s.pc) (hl : s'.launch = s.launch)
    (a : Addr) (n : Nat) : memRead s' a n = memRead s a n := by
  have hadmit : s'.memAdmitAll a n = s.memAdmitAll a n := by simp only [State.memAdmitAll, State.memAdmit, hl]
  rw [memRead, memRead, hadmit, hmem, hpc]

section
variable {i : Instr} {s s' : State}

theorem AgreesOnReads.gate_eq (h : AgreesOnReads i s s') : gate i.vlen i.length s' = gate i.vlen i.length s :=
  gate_congr h.pc h.launch

theorem AgreesOnReads.fetchSrc1_eq (h : AgreesOnReads i s s') :
    fetchSrc1 i.vlen i.operands.vs1 s' = fetchSrc1 i.vlen i.operands.vs1 s :=
  lowBits_congr h.src1

theorem AgreesOnReads.fetchSrc2_eq (h : AgreesOnReads i s s') :
    fetchSrc2 i.vlen i.operands.src2 s' = fetchSrc2 i.vlen i.operands.src2 s := by
  cases hsrc : i.operands.src2 with
  | reg n => rw [fetchSrc2, fetchSrc2, lowBits_congr (h.src2 n hsrc)]
  | mem m => rw [fetchSrc2, fetchSrc2, effAddr_congr h.x h.pc, memRead_congr h.mem h.pc h.launch]

theorem AgreesOnReads.maskLow_eq (h : AgreesOnReads i s s') :
    maskLow i.vlen.kl (fetchMask i.operands.kw s') = maskLow i.vlen.kl (fetchMask i.operands.kw s) := by
  cases hkw : i.operands.kw with
  | none => rfl
  | some n => exact maskLow_congr (h.mask n hkw)

/-- The two states stop alike, or complete with the same destination and `pc`. -/
theorem AgreesOnReads.exec_cases (h : AgreesOnReads i s s') :
    (exec i s' = exec i s ∧ ∀ t, exec i s ≠ .next t) ∨
    ∃ dest pc, exec i s = .next ((s.setK i.operands.kd dest).setPc pc) ∧
      exec i s' = .next ((s'.setK i.operands.kd dest).setPc pc) := by
  cases hg : gate i.vlen i.length s with
  | some r =>
    rw [exec_of_gate_eq_some hg, exec_of_gate_eq_some (h.gate_eq.trans hg)]
    refine .inl ⟨rfl, ?_⟩
    rintro t rfl
    exact gate_ne_some_next hg
  | none =>
    have hg' := h.gate_eq.trans hg
    cases hf : fetchSrc2 i.vlen i.operands.src2 s with
    | error f =>
      rw [exec_of_fetchSrc2_eq_error hg hf, exec_of_fetchSrc2_eq_error hg' (h.fetchSrc2_eq.trans hf)]
      exact .inl ⟨rfl, nofun⟩
    | ok b =>
      refine .inr ⟨_, _, exec_of_fetchSrc2_eq_ok hg hf, ?_⟩
      rw [exec_of_fetchSrc2_eq_ok hg' (h.fetchSrc2_eq.trans hf), h.fetchSrc1_eq, vpcmp, vpcmp, h.maskLow_eq, h.pc]

end

/-- Settles O21: the two states agree on all that the instruction reads. -/
theorem higherSourceAndMaskBitsAreIgnored : Obligations.HigherSourceAndMaskBitsAreIgnored := by
  intro i s s' hx hmem hpc hl hlow
  have h : AgreesOnReads i s s' :=
    ⟨hx, hmem, hpc, hl, fun j hj => (hlow j hj).1, fun n hn j hj => (hlow j hj).2.1 n hn,
      fun n hn j hj => (hlow j hj).2.2 n hn⟩
  rcases h.exec_cases with ⟨heq, hstop⟩ | ⟨dest, pc, hs, hs'⟩
  · exact ⟨fun f hf => heq.trans hf, fun r hr => heq.trans hr, fun t ht => absurd ht (hstop t)⟩
  · rw [hs, hs']
    refine ⟨nofun, nofun, ?_⟩
    rintro t ⟨⟩
    exact ⟨_, rfl, by simp, rfl⟩

end Sys2Proof.Machine
end

section
/-! SUPPORT. O34: the top of the address space. -/

namespace Sys2Proof.Machine

/-- The operand fetch and the completion refuse nothing, so a refusal is the checks'. -/
theorem gate_of_exec_eq_refused {i : Instr} {s : State} {r : Refusal} (h : exec i s = .refused r) :
    gate i.vlen i.length s = some (.refused r) := by
  cases hg : gate i.vlen i.length s with
  | some stop => rw [← h, exec_of_gate_eq_some hg]
  | none =>
    cases hf : fetchSrc2 i.vlen i.operands.src2 s with
    | error f => rw [exec_of_fetchSrc2_eq_error hg hf] at h; cases h
    | ok b => rw [exec_of_fetchSrc2_eq_ok hg hf] at h; cases h

/-- Settles O34: the refusal is the checks' second one, and no other check answers it. -/
theorem pcPassingTheTopIsRefused : Obligations.PcPassingTheTopIsRefused := by
  intro i s hm
  constructor
  · exact fun hp => exec_of_gate_eq_some (gate_of_pc_passes_top hm hp)
  · intro h
    rcases gate_eq_some (gate_of_exec_eq_refused h) with ⟨e, -⟩ | ⟨-, hp⟩ | ⟨e, -⟩ | ⟨e, -⟩
    · cases e
    · exact hp
    · cases e
    · cases e

end Sys2Proof.Machine
end

section
/-! SUPPORT. O29: a load as a number, byte `t` with weight `256^t` (20_memory.md R31, R32). -/

namespace Sys2Proof.Machine

/-- A byte shifted to byte place `n` of a container that has this place keeps all its bits. -/
theorem toNat_byte_shiftLeft {w : Nat} (b : Byte) {n : Nat} (hw : 8 + 8 * n ≤ w) :
    (b.setWidth w <<< (8 * n)).toNat = b.toNat * 2 ^ (8 * n) := by
  have hfit : b.toNat * 2 ^ (8 * n) < 2 ^ w :=
    calc b.toNat * 2 ^ (8 * n) < 2 ^ 8 * 2 ^ (8 * n) := Nat.mul_lt_mul_of_pos_right b.isLt (Nat.two_pow_pos _)
      _ = 2 ^ (8 + 8 * n) := (Nat.pow_add ..).symm
      _ ≤ 2 ^ w := Nat.pow_le_pow_right Nat.two_pos hw
  rw [BitVec.toNat_shiftLeft, BitVec.toNat_setWidth_of_le (by omega), Nat.shiftLeft_eq, Nat.mod_eq_of_lt hfit]

theorem Memory.toNat_loadBytes_zero (m : Memory) (a : Addr) : (m.loadBytes a 0).toNat = 0 := by
  rw [Memory.loadBytes, BitVec.ofNat_eq_ofNat, BitVec.toNat_zero]

theorem Memory.toNat_loadBytes_lt (m : Memory) (a : Addr) {n : Nat} (hn : n ≤ 64) :
    (m.loadBytes a n).toNat < 2 ^ (8 * n) := by
  induction n with
  | zero => exact (m.toNat_loadBytes_zero a).trans_lt Nat.one_pos
  | succ n ih =>
    have hlow : (m.loadBytes a n).toNat < 2 ^ (8 * (n + 1)) :=
      (ih (by omega)).trans (Nat.pow_lt_pow_right Nat.one_lt_two (by omega))
    have hbyte : (m.load (a + BitVec.ofNat 64 n)).toNat * 2 ^ (8 * n) < 2 ^ (8 * (n + 1)) := by
      rw [Nat.mul_succ, Nat.pow_add, Nat.mul_comm]
      exact Nat.mul_lt_mul_of_pos_left (BitVec.isLt _) (Nat.two_pow_pos _)
    rw [Memory.loadBytes, BitVec.toNat_or, toNat_byte_shiftLeft _ (by omega)]
    exact Nat.or_lt_two_pow hlow hbyte

/-- The next byte stands above the loaded ones, so joining it by "or" adds it. -/
theorem Memory.toNat_loadBytes_succ (m : Memory) (a : Addr) {n : Nat} (hn : n < 64) :
    (m.loadBytes a (n + 1)).toNat =
      (m.loadBytes a n).toNat + (m.load (a + BitVec.ofNat 64 n)).toNat * 256 ^ n := by
  have hlow := m.toNat_loadBytes_lt a hn.le
  rw [Memory.loadBytes, BitVec.toNat_or, toNat_byte_shiftLeft _ (by omega), Nat.lor_comm, Nat.mul_comm,
    ← Nat.two_pow_add_eq_or_of_lt hlow, Nat.pow_mul, Nat.add_comm, Nat.mul_comm]

/-- The number of a load is the little-endian number of its bytes. -/
theorem Memory.toNat_loadBytes (m : Memory) (a : Addr) {n : Nat} (hn : n ≤ 64) :
    (m.loadBytes a n).toNat = ((List.range n).map fun t => (m.load (a + BitVec.ofNat 64 t)).toNat * 256 ^ t).sum := by
  induction n with
  | zero => exact m.toNat_loadBytes_zero a
  | succ n ih => rw [m.toNat_loadBytes_succ a hn, ih (Nat.le_of_succ_le hn), List.sum_range_succ]

theorem memRead_eq_ok_of_admitted {s : State} {a : Addr} {n : Nat}
    (h : ∀ t < n, s.memAdmit (a + BitVec.ofNat 64 t) = true) : memRead s a n = .ok (s.mem.loadBytes a n) := by
  rcases memRead_cases s a n with ⟨-, hr⟩ | ⟨⟨t, ht, hrefused⟩, -⟩
  · exact hr
  · exact absurd (h t ht) (by simp [hrefused])

/-- Settles O29: the admitted read is the load, whose number is found by induction on the number of bytes. -/
theorem memReadIsLittleEndian : Obligations.MemReadIsLittleEndian :=
  fun s addr _ hn hadmit => ⟨_, memRead_eq_ok_of_admitted hadmit, s.mem.toNat_loadBytes addr hn⟩

end Sys2Proof.Machine
end

section
/-! SUPPORT. O31: once the checks pass, an instruction faults exactly where its operand fetch does. -/

namespace Sys2Proof.Machine

open Sys2Proof.Claims

/-- The launch premises and a `pc` below the top are all that the checks ask for (70_reset_and_hazards.md R111). -/
theorem gate_eq_none_of_ready {vl : VLen} {len : Nat} {s : State} (h : Ready vl len s) : gate vl len s = none := by
  obtain ⟨⟨hmode, hbw, hvl, hosxsave, ⟨hsse, havx, hopmask, hhi256, hhi16⟩, hts⟩, hpc⟩ := h
  refine gate_eq_none.mpr ⟨hmode, hpc, ?_, ?_⟩
  · rcases hvl with rfl | hvl
    · simp [Launch.hasFeatures, hbw]
    · simp [Launch.hasFeatures, hbw, hvl]
  · simp [Launch.avx512Enabled, Launch.xcr0Enabled, hosxsave, hsse, havx, hopmask, hhi256, hhi16, hts]

theorem width_eq_bytes (vl : VLen) : width vl = vl.bytes := by cases vl <;> rfl

/-- A read faults exactly when some byte is refused (20_memory.md R31). -/
theorem memRead_eq_error_iff {s : State} {a : Addr} {n : Nat} :
    memRead s a n = .error (.memFault s.pc a n) ↔ ∃ t < n, s.memAdmit (a + BitVec.ofNat 64 t) = false := by
  rcases memRead_cases s a n with ⟨hadmit, hr⟩ | ⟨hrefused, hr⟩
  · rw [hr]
    exact ⟨nofun, fun ⟨t, ht, hf⟩ => absurd (hadmit t ht) (by simp [hf])⟩
  · exact iff_of_true hr hrefused

/-- Behind the checks the operand fetch alone can fault; the writemask and the predicate are not asked
(20_memory.md R38). -/
theorem exec_eq_fault_iff_of_gate {i : Instr} {s : State} {f : Fault} (hg : gate i.vlen i.length s = none) :
    exec i s = .fault f ↔ fetchSrc2 i.vlen i.operands.src2 s = .error f := by
  cases hf : fetchSrc2 i.vlen i.operands.src2 s with
  | error f' =>
    rw [exec_of_fetchSrc2_eq_error hg hf, Host.Outcome.fault.injEq, Except.error.injEq]
  | ok b =>
    rw [exec_of_fetchSrc2_eq_ok hg hf]
    exact ⟨nofun, nofun⟩

/-- The second source of a memory form is read at the instruction's effective address. -/
theorem fetchSrc2_of_src2_eq_mem {i : Instr} {m : MemOperand} (s : State) (h : i.operands.src2 = .mem m) :
    fetchSrc2 i.vlen i.operands.src2 s = memRead s (effAddr i.vlen i.length m s) (width i.vlen) := by
  rw [Instr.length, h, fetchSrc2, width_eq_bytes]

/-- Settles O31: the memory form's fetch is a read, and the register form's fetch answers no fault. -/
theorem memoryFormFaultsExactlyWhenAByteIsRefused : Obligations.MemoryFormFaultsExactlyWhenAByteIsRefused := by
  intro i s hready
  have hg := gate_eq_none_of_ready hready
  constructor
  · intro m hm
    rw [exec_eq_fault_iff_of_gate hg, fetchSrc2_of_src2_eq_mem s hm, memRead_eq_error_iff]
  · intro n hn f hfault
    have hfetch := (exec_eq_fault_iff_of_gate hg).mp hfault
    rw [hn] at hfetch
    obtain ⟨m, hm, -⟩ := fetchSrc2_eq_error hfetch
    cases hm

end Sys2Proof.Machine
end

section
/-! SUPPORT. The family of 30_encoding.md, bit fields: a byte is the concatenation of its fields, so each encoded byte
is known by its fields; and a register number is known by the bits that spell it. -/

namespace Sys2Proof

/-! ### Fields of a byte -/

theorem extractLsb'_eq_append_iff {w lo m n : Nat} {z : BitVec w} {x : BitVec m} {y : BitVec n} :
    z.extractLsb' lo (m + n) = x ++ y ↔ z.extractLsb' (lo + n) m = x ∧ z.extractLsb' lo n = y := by
  have hsplit : z.extractLsb' lo (m + n) = z.extractLsb' (lo + n) m ++ z.extractLsb' lo n :=
    (BitVec.extractLsb'_append_extractLsb'_eq_extractLsb' rfl).symm
  rw [hsplit]
  constructor
  · intro h
    exact ⟨by simpa only [BitVec.extractLsb'_append_eq_left] using congrArg (·.extractLsb' n m) h,
      by simpa only [BitVec.extractLsb'_append_eq_right] using congrArg (·.extractLsb' 0 n) h⟩
  · rintro ⟨rfl, rfl⟩
    rfl

theorem field_eq_append_iff {b : Byte} {lo m n : Nat} {x : BitVec m} {y : BitVec n} :
    field b lo (m + n) = x ++ y ↔ field b (lo + n) m = x ∧ field b lo n = y :=
  extractLsb'_eq_append_iff

theorem eq_iff_field_eq {b c : Byte} : b = c ↔ field b 0 8 = c := by rw [field, BitVec.extractLsb'_eq_self]

theorem field_and (a b : Byte) (lo n : Nat) : field (a &&& b) lo n = field a lo n &&& field b lo n :=
  BitVec.extractLsb'_and

theorem field_or (a b : Byte) (lo n : Nat) : field (a ||| b) lo n = field a lo n ||| field b lo n :=
  BitVec.extractLsb'_or

/-! ### The encoded bytes, each known by its fields -/

/-- `P0` (30_encoding.md R48). -/
theorem eq_encodeP0_iff {p0 : Byte} {e : RmEncoding} :
    p0 = encodeP0 e ↔ field p0 7 1 = 1#1 ∧ field p0 6 1 = ~~~ e.x ∧ field p0 5 1 = ~~~ e.b ∧
      field p0 4 1 = 1#1 ∧ field p0 2 2 = 0#2 ∧ field p0 0 2 = 3#2 := by
  rw [eq_iff_field_eq]
  change field p0 0 (1 + 1 + 1 + 1 + 2 + 2) = _ ++ _ ↔ _
  simp only [field_eq_append_iff, and_assoc]

/-- `P1` (30_encoding.md R49). -/
theorem eq_encodeP1_iff {p1 : Byte} {vs1 : VReg} :
    p1 = encodeP1 vs1 ↔ field p1 7 1 = 0#1 ∧ field p1 3 4 = ~~~ BitVec.ofNat 4 vs1.val ∧ field p1 2 1 = 1#1 ∧
      field p1 0 2 = 1#2 := by
  rw [eq_iff_field_eq]
  change field p1 0 (1 + 4 + 1 + 2) = _ ++ _ ↔ _
  simp only [field_eq_append_iff, and_assoc]

/-- `P2` (30_encoding.md R50). -/
theorem eq_encodeP2_iff {p2 : Byte} {vl : VLen} {vs1 : VReg} {kw : Option KReg} :
    p2 = encodeP2 vl vs1 kw ↔ field p2 7 1 = 0#1 ∧ field p2 5 2 = vl.ll ∧ field p2 4 1 = 0#1 ∧
      field p2 3 1 = ~~~ BitVec.ofNat 1 (vs1.val / 16) ∧ field p2 0 3 = aaaOf kw := by
  rw [eq_iff_field_eq]
  change field p2 0 (1 + 2 + 1 + 1 + 3) = _ ++ _ ↔ _
  simp only [field_eq_append_iff, and_assoc]

/-- ModRM (30_encoding.md R52). -/
theorem eq_encodeModrm_iff {modrm : Byte} {e : RmEncoding} {kd : KReg} :
    modrm = encodeModrm e kd ↔
      field modrm 6 2 = e.md ∧ field modrm 3 3 = BitVec.ofNat 3 kd.val ∧ field modrm 0 3 = e.rm := by
  rw [eq_iff_field_eq]
  change field modrm 0 (2 + 3 + 3) = _ ++ _ ↔ _
  simp only [field_eq_append_iff, and_assoc]

/-- SIB (30_encoding.md R56). -/
theorem eq_sibByte_iff {sib : Byte} {index : Index} {bs : BitVec 3} :
    sib = index.sibByte bs ↔
      field sib 6 2 = index.scale ∧ field sib 3 3 = gregLow3 index.number ∧ field sib 0 3 = bs := by
  rw [eq_iff_field_eq]
  change field sib 0 (2 + 3 + 3) = _ ++ _ ↔ _
  simp only [field_eq_append_iff, and_assoc]

/-- The four bytes of a displacement (30_encoding.md R56, D9). -/
theorem eq_d32Of_iff {d : BitVec 32} {a b c e : Byte} : d = d32Of a b c e ↔ d32Bytes d = [a, b, c, e] := by
  have h : d = d32Of a b c e ↔ d.extractLsb' 0 (8 + 8 + 8 + 8) = e ++ c ++ b ++ a := by
    rw [BitVec.extractLsb'_eq_self, d32Of]
  rw [h, d32Bytes]
  simp only [extractLsb'_eq_append_iff, List.cons.injEq, and_true, zero_add]
  tauto

/-! ### Register numbers, each known by its bits -/

theorem eq_vregOf_iff : ∀ (n : VReg) (hi : BitVec 1) (lo : BitVec 4),
    n = vregOf hi lo ↔ BitVec.ofNat 1 (n.val / 16) = hi ∧ BitVec.ofNat 4 n.val = lo := by decide

theorem eq_gregOf_iff : ∀ (g : GReg) (ext : BitVec 1) (low : BitVec 3),
    g = gregOf ext low ↔ gregExt g = ext ∧ gregLow3 g = low := by decide

theorem gregOf_ext_low (g : GReg) : gregOf (gregExt g) (gregLow3 g) = g :=
  ((eq_gregOf_iff g _ _).mpr ⟨rfl, rfl⟩).symm

theorem gregLow3_eq_iff : ∀ (g : GReg) (low : BitVec 3), gregLow3 g = low ↔ gregLow g = low.toNat := by decide

theorem eq_toFin_iff : ∀ (n : KReg) (reg : BitVec 3), n = reg.toFin ↔ BitVec.ofNat 3 n.val = reg := by decide

/-- The selector 000 spells no writemask, so k0 is not among the answers (10_state.md R19). -/
theorem eq_writemaskOf_iff : ∀ (kw : Option KReg) (aaa : BitVec 3),
    kw = writemaskOf aaa ↔ maskSelectable kw = true ∧ aaaOf kw = aaa := by decide

theorem encodeSrc2_reg_eq_iff : ∀ (n : VReg) (x b : BitVec 1) (rm : BitVec 3),
    n = vregOf x (b ++ rm) ↔ encodeSrc2 (.reg n) = ⟨x, b, 3#2, rm, []⟩ := by decide

/-! ### The instruction of a form -/

@[simp] theorem Instr.signedness_ofForm (sg : Signedness) (vl : VLen) (o : Operands) :
    (Instr.ofForm sg vl o).signedness = sg := by cases sg <;> cases vl <;> rfl

@[simp] theorem Instr.vlen_ofForm (sg : Signedness) (vl : VLen) (o : Operands) :
    (Instr.ofForm sg vl o).vlen = vl := by cases sg <;> cases vl <;> rfl

@[simp] theorem Instr.operands_ofForm (sg : Signedness) (vl : VLen) (o : Operands) :
    (Instr.ofForm sg vl o).operands = o := by cases sg <;> cases vl <;> rfl

@[simp] theorem Instr.ofForm_eta (i : Instr) : Instr.ofForm i.signedness i.vlen i.operands = i := by
  cases i <;> rfl

end Sys2Proof
end

section
/-! SUPPORT. What each function of the decoder accepts, said once, as an equivalence. -/

namespace Sys2Proof

/-! ### The tests of bytes 0 to 4 -/

/-- Behind a test that refuses, an answer is accepted exactly when the test passes. -/
theorem ite_error_eq_ok_iff {ε α : Type} {c : Prop} [Decidable c] {r : ε} {x : Except ε α} {y : α} :
    (if c then .error r else x) = .ok y ↔ ¬ c ∧ x = .ok y := by
  by_cases hc : c
  · simp [hc]
  · simp [hc]

theorem signednessOf_eq_some_iff {op : Byte} {sg : Signedness} : signednessOf op = some sg ↔ op = sg.opcode := by
  unfold signednessOf
  by_cases h3F : op = 0x3F#8
  · subst h3F
    cases sg <;> decide
  · by_cases h3E : op = 0x3E#8
    · subst h3E
      cases sg <;> decide
    · cases sg <;> simp [Signedness.opcode, h3F, h3E]

theorem vlenOf_eq_some_iff (ll : BitVec 2) (vl : VLen) : vlenOf ll = some vl ↔ ll = vl.ll := by
  revert ll
  cases vl <;> decide

/-- Bytes 0 to 4 spell a form exactly when every fixed field has its value (30_encoding.md R60, R61). -/
theorem decodeForm_eq_ok_iff {b0 p0 p1 p2 op : Byte} {sg : Signedness} {vl : VLen} :
    decodeForm b0 p0 p1 p2 op = .ok (sg, vl) ↔
      b0 = 0x62#8 ∧ (field p0 0 2 = 3#2 ∧ field p1 0 2 = 1#2) ∧ op = sg.opcode ∧ field p1 7 1 = 0#1 ∧
        (field p0 2 2 = 0#2 ∧ field p1 2 1 = 1#1) ∧ (field p0 7 1 = 1#1 ∧ field p0 4 1 = 1#1) ∧
        field p2 7 1 = 0#1 ∧ field p2 4 1 = 0#1 ∧ field p2 5 2 = vl.ll := by
  rw [← signednessOf_eq_some_iff, ← vlenOf_eq_some_iff]
  unfold decodeForm
  simp only [ite_error_eq_ok_iff, not_or, not_not]
  cases signednessOf op with
  | none => simp
  | some sg' =>
    simp only [ite_error_eq_ok_iff, not_or, not_not]
    cases vlenOf (field p2 5 2) with
    | none => simp
    | some vl' =>
      simp only [Except.ok.injEq, Prod.mk.injEq, Option.some.injEq]
      tauto

/-! ### Displacements -/

theorem takeD32_eq_ok_iff {bs rest : List Byte} {d : BitVec 32} :
    takeD32 bs = .ok (d, rest) ↔ bs = d32Bytes d ++ rest := by
  rcases bs with _ | ⟨a, _ | ⟨b, _ | ⟨c, _ | ⟨e, bs⟩⟩⟩⟩
  case cons.cons.cons.cons =>
    have h : takeD32 (a :: b :: c :: e :: bs) = .ok (d, rest) ↔ d = d32Of a b c e ∧ bs = rest := by
      rw [takeD32, Except.ok.injEq, Prod.mk.injEq, eq_comm]
    rw [h, eq_d32Of_iff, d32Bytes]
    simp only [List.cons_append, List.nil_append, List.cons.injEq, and_true]
    tauto
  all_goals simp [takeD32, d32Bytes]

theorem mod_cases : ∀ md : BitVec 2, md ≠ 3#2 → md = 0#2 ∨ md = 1#2 ∨ md = 2#2 := by decide

theorem Disp.mod_ne_three (disp : Disp) : disp.mod ≠ 3#2 := by cases disp <;> simp [Disp.mod]

theorem Disp.mod_eq_zero_iff (disp : Disp) : disp.mod = 0#2 ↔ disp = .none := by cases disp <;> simp [Disp.mod]

theorem takeDisp_eq_ok_iff {md : BitVec 2} {bs rest : List Byte} {disp : Disp} (hmd : md ≠ 3#2) :
    takeDisp md bs = .ok (disp, rest) ↔ disp.mod = md ∧ bs = disp.bytes ++ rest := by
  rcases mod_cases md hmd with rfl | rfl | rfl
  · cases disp <;> simp [takeDisp, Disp.mod, Disp.bytes]
  · cases bs <;> cases disp <;> simp [takeDisp, Disp.mod, Disp.bytes]
  · cases disp with
    | none => cases h : takeD32 bs <;> simp [takeDisp, Disp.mod, h]
    | d8 d => cases h : takeD32 bs <;> simp [takeDisp, Disp.mod, h]
    | d32 d =>
      simp only [Disp.mod, Disp.bytes, true_and, ← takeD32_eq_ok_iff]
      rcases h : takeD32 bs with r | ⟨d', rest'⟩ <;> simp [takeDisp, h]

/-! ### The index of a SIB byte -/

/-- The index that `X` and a SIB byte spell, number 4 meaning no index (30_encoding.md R56). -/
def indexOf (x : BitVec 1) (sib : Byte) : Index where
  scale := field sib 6 2
  reg := if gregOf x (field sib 3 3) = 4 then none else some (gregOf x (field sib 3 3))

theorem number_indexOf (x : BitVec 1) (sib : Byte) : (indexOf x sib).number = gregOf x (field sib 3 3) := by
  by_cases h : gregOf x (field sib 3 3) = 4
  · simp [Index.number, indexOf, h]
  · simp [Index.number, indexOf, h]

theorem wellFormed_indexOf (x : BitVec 1) (sib : Byte) : (indexOf x sib).wellFormed = true := by
  by_cases h : gregOf x (field sib 3 3) = 4
  · simp [Index.wellFormed, indexOf, h]
  · simp [Index.wellFormed, indexOf, h]

theorem Index.reg_eq_of_wellFormed {index : Index} (h : index.wellFormed = true) :
    index.reg = if index.number = 4 then none else some index.number := by
  obtain ⟨scale, reg⟩ := index
  cases reg with
  | none => rfl
  | some g =>
    have hg : g ≠ 4 := bne_iff_ne.mp h
    exact (if_neg hg).symm

theorem eq_indexOf_iff {index : Index} {x : BitVec 1} {sib : Byte} :
    index = indexOf x sib ↔
      index.wellFormed = true ∧ gregExt index.number = x ∧ sib = index.sibByte (field sib 0 3) := by
  rw [eq_sibByte_iff]
  constructor
  · rintro rfl
    obtain ⟨hx, hlow⟩ := (eq_gregOf_iff _ _ _).mp (number_indexOf x sib)
    exact ⟨wellFormed_indexOf x sib, hx, rfl, hlow.symm, rfl⟩
  · rintro ⟨hwf, hx, hscale, hlow, -⟩
    have hnumber : index.number = gregOf x (field sib 3 3) := (eq_gregOf_iff _ _ _).mpr ⟨hx, hlow.symm⟩
    have hreg := Index.reg_eq_of_wellFormed hwf
    rw [hnumber] at hreg
    rw [indexOf, hscale, ← hreg]

theorem indexOf_sibByte {index : Index} (hwf : index.wellFormed = true) (bs : BitVec 3) :
    indexOf (gregExt index.number) (index.sibByte bs) = index ∧ field (index.sibByte bs) 0 3 = bs := by
  obtain ⟨-, -, hbs⟩ := eq_sibByte_iff.mp (rfl : index.sibByte bs = _)
  exact ⟨(eq_indexOf_iff.mpr ⟨hwf, rfl, by rw [hbs]⟩).symm, hbs⟩

/-! ### The memory operand, by the rows of 30_encoding.md R56 -/

section
variable {x b : BitVec 1} {md : BitVec 2} {rm : BitVec 3} {sib : Byte} {bs rest : List Byte} {m : MemOperand}

theorem decodeSib_noBase_eq_ok_iff (hmd : md = 0#2) (hbs : field sib 0 3 = 5#3) :
    decodeSib x b md sib bs = .ok (m, rest) ↔
      b = 0#1 ∧ ∃ d, .sibNoBase (indexOf x sib) d = m ∧ bs = d32Bytes d ++ rest := by
  simp only [decodeSib, hmd, hbs, and_self, if_true, ite_error_eq_ok_iff, not_not, ← takeD32_eq_ok_iff]
  rcases takeD32 bs with r | ⟨d, rest'⟩
  · simp
  · simp [indexOf]

theorem decodeSib_base_eq_ok_iff (hmd : md ≠ 3#2) (h : ¬ (md = 0#2 ∧ field sib 0 3 = 5#3)) :
    decodeSib x b md sib bs = .ok (m, rest) ↔
      ∃ disp, .sib (gregOf b (field sib 0 3)) (indexOf x sib) disp = m ∧ disp.mod = md ∧
        bs = disp.bytes ++ rest := by
  simp only [decodeSib, if_neg h, ← takeDisp_eq_ok_iff hmd]
  rcases takeDisp md bs with r | ⟨d, rest'⟩
  · simp
  · simp [indexOf]

theorem decodeMem_sib_eq_ok_iff :
    decodeMem x b md 4#3 bs = .ok (m, rest) ↔
      ∃ sib bs', bs = sib :: bs' ∧ decodeSib x b md sib bs' = .ok (m, rest) := by
  cases bs <;> simp [decodeMem]

theorem decodeMem_ripRel_eq_ok_iff :
    decodeMem x b 0#2 5#3 bs = .ok (m, rest) ↔
      x = 0#1 ∧ b = 0#1 ∧ ∃ d, .ripRel d = m ∧ bs = d32Bytes d ++ rest := by
  simp only [decodeMem, ← takeD32_eq_ok_iff]
  rw [if_neg (by decide), if_pos (by decide), ite_error_eq_ok_iff, not_or, not_not, not_not]
  rcases takeD32 bs with r | ⟨d, rest'⟩
  · simp
  · simp [and_assoc]

theorem decodeMem_base_eq_ok_iff (hmd : md ≠ 3#2) (hrm : rm ≠ 4#3) (h : ¬ (md = 0#2 ∧ rm = 5#3)) :
    decodeMem x b md rm bs = .ok (m, rest) ↔
      x = 0#1 ∧ ∃ disp, .base (gregOf b rm) disp = m ∧ disp.mod = md ∧ bs = disp.bytes ++ rest := by
  unfold decodeMem
  rw [if_neg hrm, if_neg h, ite_error_eq_ok_iff, not_not]
  simp only [← takeDisp_eq_ok_iff hmd]
  rcases takeDisp md bs with r | ⟨d, rest'⟩
  · simp
  · simp

end

theorem MemOperand.base_wellFormed_iff {g : GReg} {disp : Disp} :
    (MemOperand.base g disp).wellFormed = true ↔
      gregLow3 g ≠ 4#3 ∧ ¬ (disp.mod = 0#2 ∧ gregLow3 g = 5#3) := by
  simp only [MemOperand.wellFormed, Bool.and_eq_true, Bool.or_eq_true, bne_iff_ne, ne_eq, Disp.mod_eq_zero_iff,
    gregLow3_eq_iff, BitVec.reduceToNat]
  tauto

theorem MemOperand.sib_wellFormed_iff {g : GReg} {index : Index} {disp : Disp} :
    (MemOperand.sib g index disp).wellFormed = true ↔
      index.wellFormed = true ∧ ¬ (disp.mod = 0#2 ∧ gregLow3 g = 5#3) := by
  simp only [MemOperand.wellFormed, Bool.and_eq_true, Bool.or_eq_true, bne_iff_ne, ne_eq, Disp.mod_eq_zero_iff,
    gregLow3_eq_iff, BitVec.reduceToNat]
  tauto

theorem encodeSrc2_mem_md_ne_three (m : MemOperand) : (encodeSrc2 (.mem m)).md ≠ 3#2 := by
  cases m with
  | ripRel d => simp [encodeSrc2]
  | base g disp => exact disp.mod_ne_three
  | sib g index disp => exact disp.mod_ne_three
  | sibNoBase index d => simp [encodeSrc2]

/-- An accepted memory operand is well formed and spelled by the bits and bytes read, along the decoder's branches. -/
theorem encodeSrc2_of_decodeMem {x b : BitVec 1} {md : BitVec 2} {rm : BitVec 3} {bs rest : List Byte} {m : MemOperand}
    (hmd : md ≠ 3#2) (h : decodeMem x b md rm bs = .ok (m, rest)) :
    m.wellFormed = true ∧ ∃ tail, encodeSrc2 (.mem m) = ⟨x, b, md, rm, tail⟩ ∧ bs = tail ++ rest := by
  by_cases hrm : rm = 4#3
  · subst hrm
    obtain ⟨sib, bs, rfl, h⟩ := decodeMem_sib_eq_ok_iff.mp h
    obtain ⟨hwf, hx, hsib⟩ := eq_indexOf_iff.mp (rfl : indexOf x sib = indexOf x sib)
    by_cases hnb : md = 0#2 ∧ field sib 0 3 = 5#3
    · obtain ⟨rfl, hbs⟩ := hnb
      obtain ⟨rfl, d, rfl, rfl⟩ := (decodeSib_noBase_eq_ok_iff rfl hbs).mp h
      rw [hbs] at hsib
      exact ⟨hwf, sib :: d32Bytes d, by rw [encodeSrc2, hx, ← hsib], rfl⟩
    · obtain ⟨disp, rfl, rfl, rfl⟩ := (decodeSib_base_eq_ok_iff hmd hnb).mp h
      obtain ⟨hb, hlow⟩ := (eq_gregOf_iff _ _ _).mp (rfl : gregOf b (field sib 0 3) = _)
      exact ⟨MemOperand.sib_wellFormed_iff.mpr ⟨hwf, by rwa [hlow]⟩, sib :: disp.bytes,
        by rw [encodeSrc2, hx, hb, hlow, ← hsib], rfl⟩
  · by_cases hrip : md = 0#2 ∧ rm = 5#3
    · obtain ⟨rfl, rfl⟩ := hrip
      obtain ⟨rfl, rfl, d, rfl, rfl⟩ := decodeMem_ripRel_eq_ok_iff.mp h
      exact ⟨rfl, d32Bytes d, rfl, rfl⟩
    · obtain ⟨rfl, disp, rfl, rfl, rfl⟩ := (decodeMem_base_eq_ok_iff hmd hrm hrip).mp h
      obtain ⟨hb, hlow⟩ := (eq_gregOf_iff _ _ _).mp (rfl : gregOf b rm = _)
      exact ⟨MemOperand.base_wellFormed_iff.mpr (by rw [hlow]; exact ⟨hrm, hrip⟩), disp.bytes,
        by rw [encodeSrc2, hb, hlow], rfl⟩

/-- The spelling of a well-formed memory operand is accepted as that operand, along the addressing modes. -/
theorem decodeMem_encodeSrc2 {m : MemOperand} (hwf : m.wellFormed = true) (rest : List Byte) :
    decodeMem (encodeSrc2 (.mem m)).x (encodeSrc2 (.mem m)).b (encodeSrc2 (.mem m)).md (encodeSrc2 (.mem m)).rm
      ((encodeSrc2 (.mem m)).tail ++ rest) = .ok (m, rest) := by
  cases m with
  | ripRel d => exact decodeMem_ripRel_eq_ok_iff.mpr ⟨rfl, rfl, d, rfl, rfl⟩
  | base g disp =>
    obtain ⟨h4, h5⟩ := MemOperand.base_wellFormed_iff.mp hwf
    refine (decodeMem_base_eq_ok_iff disp.mod_ne_three h4 h5).mpr ⟨rfl, disp, ?_, rfl, rfl⟩
    exact congrArg (MemOperand.base · disp) (gregOf_ext_low g)
  | sib g index disp =>
    obtain ⟨hindex, h5⟩ := MemOperand.sib_wellFormed_iff.mp hwf
    obtain ⟨hi, hbs⟩ := indexOf_sibByte hindex (gregLow3 g)
    refine decodeMem_sib_eq_ok_iff.mpr ⟨_, _, rfl, ?_⟩
    refine (decodeSib_base_eq_ok_iff disp.mod_ne_three (by rwa [hbs])).mpr ⟨disp, ?_, rfl, rfl⟩
    dsimp only [encodeSrc2]
    rw [hi, hbs, gregOf_ext_low]
  | sibNoBase index d =>
    obtain ⟨hi, hbs⟩ := indexOf_sibByte hwf 5#3
    refine decodeMem_sib_eq_ok_iff.mpr ⟨_, _, rfl, ?_⟩
    refine (decodeSib_noBase_eq_ok_iff rfl hbs).mpr ⟨rfl, d, ?_, rfl⟩
    dsimp only [encodeSrc2]
    rw [hi]

theorem decodeMem_eq_ok_iff {x b : BitVec 1} {md : BitVec 2} {rm : BitVec 3} {bs rest : List Byte} {m : MemOperand}
    (hmd : md ≠ 3#2) :
    decodeMem x b md rm bs = .ok (m, rest) ↔
      m.wellFormed = true ∧ ∃ tail, encodeSrc2 (.mem m) = ⟨x, b, md, rm, tail⟩ ∧ bs = tail ++ rest := by
  constructor
  · exact encodeSrc2_of_decodeMem hmd
  · rintro ⟨hwf, tail, he, rfl⟩
    have h := decodeMem_encodeSrc2 hwf rest
    rwa [he] at h

/-! ### Operand 3 -/

/-- Operand 3 is accepted exactly as the encoder spells it (30_encoding.md R53, R56). -/
theorem decodeSrc2_eq_ok_iff {p0 modrm : Byte} {bs rest : List Byte} {src2 : Src2} :
    decodeSrc2 p0 modrm bs = .ok (src2, rest) ↔
      src2.wellFormed = true ∧ ∃ tail,
        encodeSrc2 src2 = ⟨~~~ field p0 6 1, ~~~ field p0 5 1, field modrm 6 2, field modrm 0 3, tail⟩ ∧
          bs = tail ++ rest := by
  unfold decodeSrc2
  by_cases hmd : field modrm 6 2 = 3#2
  · simp only [hmd, if_true, Except.ok.injEq, Prod.mk.injEq]
    cases src2 with
    | reg n =>
      simp only [Src2.reg.injEq, @eq_comm _ _ n, encodeSrc2_reg_eq_iff]
      simp [encodeSrc2, Src2.wellFormed]
    | mem m =>
      have hne := encodeSrc2_mem_md_ne_three m
      constructor
      · rintro ⟨⟨⟩, -⟩
      · rintro ⟨-, tail, he, -⟩
        exact absurd (congrArg RmEncoding.md he) hne
  · rw [if_neg hmd]
    cases src2 with
    | reg n =>
      constructor
      · intro h
        split at h <;> cases h
      · rintro ⟨-, tail, he, -⟩
        exact absurd (congrArg RmEncoding.md he).symm hmd
    | mem m =>
      rw [Src2.wellFormed, ← decodeMem_eq_ok_iff hmd]
      rcases decodeMem _ _ _ _ bs with r | ⟨m', rest'⟩ <;> simp

/-! ### The whole instruction -/

/-- The operands that the decoder reads from `P1`, `P2`, ModRM, the second source and the immediate. -/
def decodedOperands (p1 p2 modrm : Byte) (src2 : Src2) (imm8 : Byte) : Operands where
  kd := (field modrm 3 3).toFin
  kw := writemaskOf (field p2 0 3)
  vs1 := vregOf (~~~ field p2 3 1) (~~~ field p1 3 4)
  src2 := src2
  imm8 := imm8

theorem eq_decodedOperands_iff {o : Operands} {p1 p2 modrm : Byte} {src2 : Src2} {imm8 : Byte} :
    o = decodedOperands p1 p2 modrm src2 imm8 ↔
      BitVec.ofNat 3 o.kd.val = field modrm 3 3 ∧ (maskSelectable o.kw = true ∧ aaaOf o.kw = field p2 0 3) ∧
        (BitVec.ofNat 1 (o.vs1.val / 16) = ~~~ field p2 3 1 ∧ BitVec.ofNat 4 o.vs1.val = ~~~ field p1 3 4) ∧
        o.src2 = src2 ∧ o.imm8 = imm8 := by
  rw [← eq_toFin_iff, ← eq_writemaskOf_iff, ← eq_vregOf_iff]
  exact Operands.mk.injEq .. ▸ Iff.rfl

section
variable {policy : ImmPolicy} {b0 p0 p1 p2 op modrm : Byte} {bs rest : List Byte} {sg : Signedness} {vl : VLen}

theorem decode_of_decodeForm_eq_error {r : DecodeReason} (h : decodeForm b0 p0 p1 p2 op = .error r) :
    decode policy (b0 :: p0 :: p1 :: p2 :: op :: modrm :: bs) = .error r := by
  simp only [decode, h]

theorem decode_of_decodeSrc2_eq_error {r : DecodeReason} (hform : decodeForm b0 p0 p1 p2 op = .ok (sg, vl))
    (h : decodeSrc2 p0 modrm bs = .error r) :
    decode policy (b0 :: p0 :: p1 :: p2 :: op :: modrm :: bs) = .error r := by
  simp only [decode, hform, h]

/-- Behind the tests of bytes 0 to 4 and operand 3, the immediate alone can be refused (30_encoding.md R67). -/
theorem decode_of_decodeSrc2_eq_ok {src2 : Src2} {imm8 : Byte} (hform : decodeForm b0 p0 p1 p2 op = .ok (sg, vl))
    (h : decodeSrc2 p0 modrm bs = .ok (src2, imm8 :: rest)) :
    decode policy (b0 :: p0 :: p1 :: p2 :: op :: modrm :: bs) =
      if immAdmitted policy imm8 then .ok (Instr.ofForm sg vl (decodedOperands p1 p2 modrm src2 imm8), rest)
      else .error .reservedImmBits := by
  simp only [decode, hform, h]
  rfl

/-- Whatever is accepted passes every test of bytes 0 to 4, of operand 3 and of the immediate. -/
theorem decode_eq_ok {i : Instr} (h : decode policy bs = .ok (i, rest)) :
    ∃ b0 p0 p1 p2 op modrm tail sg vl src2 imm8, bs = b0 :: p0 :: p1 :: p2 :: op :: modrm :: tail ∧
      decodeForm b0 p0 p1 p2 op = .ok (sg, vl) ∧ decodeSrc2 p0 modrm tail = .ok (src2, imm8 :: rest) ∧
      immAdmitted policy imm8 = true ∧ i = Instr.ofForm sg vl (decodedOperands p1 p2 modrm src2 imm8) := by
  unfold decode at h
  split at h
  · next b0 p0 p1 p2 op modrm tail =>
    split at h
    · cases h
    · next sg vl hform =>
      split at h
      · cases h
      · next src2 imm8 rest' hsrc =>
        split at h
        · next himm =>
          cases h
          exact ⟨b0, p0, p1, p2, op, modrm, tail, sg, vl, src2, imm8, rfl, hform, hsrc, himm, rfl⟩
        · cases h
      · cases h
  · cases h

end

end Sys2Proof
end

section
/-! SUPPORT. O1, O2: the decoder and the encoder are inverse to each other. -/

namespace Sys2Proof

/-- The bytes of `i` with operand 3 spelled as `e` says, before the SIB, displacement and immediate bytes `tail`. -/
def bytesWith (i : Instr) (e : RmEncoding) (tail : List Byte) : List Byte :=
  0x62#8 :: encodeP0 e :: encodeP1 i.operands.vs1 :: encodeP2 i.vlen i.operands.vs1 i.operands.kw ::
    i.signedness.opcode :: encodeModrm e i.operands.kd :: tail

theorem encode_append (i : Instr) (rest : List Byte) :
    encode i ++ rest = bytesWith i (encodeSrc2 i.operands.src2)
      ((encodeSrc2 i.operands.src2).tail ++ i.operands.imm8 :: rest) := by
  simp [encode, bytesWith]

/-- The bytes 0 to 4 of an encoding pass every test, however operand 3 is spelled. -/
theorem decodeForm_bytesWith (i : Instr) (e : RmEncoding) :
    decodeForm 0x62#8 (encodeP0 e) (encodeP1 i.operands.vs1) (encodeP2 i.vlen i.operands.vs1 i.operands.kw)
      i.signedness.opcode = .ok (i.signedness, i.vlen) := by
  obtain ⟨h07, -, -, h04, h02, h00⟩ := eq_encodeP0_iff.mp (rfl : encodeP0 e = _)
  obtain ⟨h17, -, h12, h10⟩ := eq_encodeP1_iff.mp (rfl : encodeP1 i.operands.vs1 = _)
  obtain ⟨h27, h25, h24, -, -⟩ := eq_encodeP2_iff.mp (rfl : encodeP2 i.vlen i.operands.vs1 i.operands.kw = _)
  exact decodeForm_eq_ok_iff.mpr ⟨rfl, ⟨h00, h10⟩, rfl, h17, ⟨h02, h12⟩, ⟨h07, h04⟩, h27, h24, h25⟩

theorem decodeSrc2_encode {src2 : Src2} (hwf : src2.wellFormed = true) (kd : KReg) (rest : List Byte) :
    decodeSrc2 (encodeP0 (encodeSrc2 src2)) (encodeModrm (encodeSrc2 src2) kd) ((encodeSrc2 src2).tail ++ rest) =
      .ok (src2, rest) := by
  obtain ⟨-, hx, hb, -, -, -⟩ := eq_encodeP0_iff.mp (rfl : encodeP0 (encodeSrc2 src2) = _)
  obtain ⟨hmd, -, hrm⟩ := eq_encodeModrm_iff.mp (rfl : encodeModrm (encodeSrc2 src2) kd = _)
  refine decodeSrc2_eq_ok_iff.mpr ⟨hwf, (encodeSrc2 src2).tail, ?_, rfl⟩
  rw [hx, hb, hmd, hrm, BitVec.not_not, BitVec.not_not]

theorem decodedOperands_encode {i : Instr} (hwf : i.wellFormed = true) :
    decodedOperands (encodeP1 i.operands.vs1) (encodeP2 i.vlen i.operands.vs1 i.operands.kw)
      (encodeModrm (encodeSrc2 i.operands.src2) i.operands.kd) i.operands.src2 i.operands.imm8 = i.operands := by
  obtain ⟨-, hlow, -, -⟩ := eq_encodeP1_iff.mp (rfl : encodeP1 i.operands.vs1 = _)
  obtain ⟨-, -, -, hhigh, haaa⟩ := eq_encodeP2_iff.mp (rfl : encodeP2 i.vlen i.operands.vs1 i.operands.kw = _)
  obtain ⟨-, hkd, -⟩ := eq_encodeModrm_iff.mp (rfl : encodeModrm (encodeSrc2 i.operands.src2) i.operands.kd = _)
  obtain ⟨hkw, -⟩ := Bool.and_eq_true_iff.mp hwf
  symm
  rw [eq_decodedOperands_iff, hlow, hhigh, haaa, hkd, BitVec.not_not, BitVec.not_not]
  exact ⟨rfl, ⟨hkw, rfl⟩, ⟨rfl, rfl⟩, rfl, rfl⟩

/-- The bytes of a well-formed instruction are refused for nothing but a reserved immediate bit. -/
theorem decode_encode {i : Instr} (hwf : i.wellFormed = true) (policy : ImmPolicy) (rest : List Byte) :
    decode policy (encode i ++ rest) =
      if immAdmitted policy i.operands.imm8 then .ok (i, rest) else .error .reservedImmBits := by
  obtain ⟨-, hsrc⟩ := Bool.and_eq_true_iff.mp hwf
  rw [encode_append, bytesWith, decode_of_decodeSrc2_eq_ok (decodeForm_bytesWith i _) (decodeSrc2_encode hsrc _ _),
    decodedOperands_encode hwf, Instr.ofForm_eta]

/-- Settles O1: the encoded fields pass every test of the decoder, and each is read back. -/
theorem decodeOfEncodeIsTheInstruction : Obligations.DecodeOfEncodeIsTheInstruction := by
  intro policy i rest hwf himm
  rw [decode_encode hwf, if_pos himm]

/-- Settles O2: every field of an accepted byte is either fixed by a test or kept in the answer, and a byte is known by
its fields. -/
theorem acceptedBytesAreTheEncoding : Obligations.AcceptedBytesAreTheEncoding := by
  intro policy bs i rest h
  obtain ⟨b0, p0, p1, p2, op, modrm, tail, sg, vl, src2, imm8, rfl, hform, hsrc, himm, rfl⟩ := decode_eq_ok h
  obtain ⟨rfl, ⟨h00, h10⟩, rfl, h17, ⟨h02, h12⟩, ⟨h07, h04⟩, h27, h24, h25⟩ := decodeForm_eq_ok_iff.mp hform
  obtain ⟨hwf, tail, he, rfl⟩ := decodeSrc2_eq_ok_iff.mp hsrc
  generalize ho : decodedOperands p1 p2 modrm src2 imm8 = o
  obtain ⟨hkd, ⟨hkw, haaa⟩, ⟨hhigh, hlow⟩, rfl, rfl⟩ := eq_decodedOperands_iff.mp ho.symm
  rw [encode_append, bytesWith, Instr.wellFormed, Instr.operands_ofForm, Instr.vlen_ofForm, Instr.signedness_ofForm]
  refine ⟨?_, Bool.and_eq_true_iff.mpr ⟨hkw, hwf⟩, himm⟩
  have hp0 : p0 = encodeP0 (encodeSrc2 o.src2) :=
    eq_encodeP0_iff.mpr ⟨h07, by rw [he, BitVec.not_not], by rw [he, BitVec.not_not], h04, h02, h00⟩
  have hp1 : p1 = encodeP1 o.vs1 := eq_encodeP1_iff.mpr ⟨h17, by rw [hlow, BitVec.not_not], h12, h10⟩
  have hp2 : p2 = encodeP2 vl o.vs1 o.kw :=
    eq_encodeP2_iff.mpr ⟨h27, h25, h24, by rw [hhigh, BitVec.not_not], haaa.symm⟩
  have hmodrm : modrm = encodeModrm (encodeSrc2 o.src2) o.kd :=
    eq_encodeModrm_iff.mpr ⟨by rw [he], hkd.symm, by rw [he]⟩
  rw [← hp0, ← hp1, ← hp2, ← hmodrm, he]

end Sys2Proof
end

section
/-! SUPPORT. O5, O4, O3: fixed words, the rows' patterns, and the length. -/

namespace Sys2Proof

open Sys2Proof.Claims

/-- Settles O5: evaluation of the decoder on the six words. -/
theorem specWordsDecodeAsListed : Obligations.SpecWordsDecodeAsListed := ⟨rfl, rfl, rfl, rfl, rfl, rfl⟩

/-! ### The pattern of bytes 0 to 4 -/

theorem toNat_append_byte {w : Nat} (x : BitVec w) (b : Byte) : (x ++ b).toNat = x.toNat * 256 + b.toNat := by
  rw [BitVec.toNat_append, ← Nat.shiftLeft_add_eq_or_of_lt b.isLt, Nat.shiftLeft_eq]

theorem firstFive_eq (b0 b1 b2 b3 b4 : Byte) (bs : List Byte) :
    firstFive (b0 :: b1 :: b2 :: b3 :: b4 :: bs) = (b0 ++ b1 ++ b2 ++ b3 ++ b4).toNat := by
  simp only [firstFive, List.take_succ_cons, List.take_zero, List.foldl_cons, List.foldl_nil, toNat_append_byte,
    zero_mul, zero_add]

theorem mask_eq_toNat : 0xFF9F87F0FF = (0xFF#8 ++ 0x9F#8 ++ 0x87#8 ++ 0xF0#8 ++ 0xFF#8).toNat := by simp

/-- The mask of 30_encoding.md R60, byte by byte. -/
theorem firstFive_and_mask (b0 b1 b2 b3 b4 : Byte) (bs : List Byte) :
    firstFive (b0 :: b1 :: b2 :: b3 :: b4 :: bs) &&& 0xFF9F87F0FF =
      ((b0 &&& 0xFF#8) ++ (b1 &&& 0x9F#8) ++ (b2 &&& 0x87#8) ++ (b3 &&& 0xF0#8) ++ (b4 &&& 0xFF#8)).toNat := by
  rw [firstFive_eq, mask_eq_toNat, ← BitVec.toNat_and, BitVec.and_append, BitVec.and_append, BitVec.and_append,
    BitVec.and_append]

theorem and_0xFF (b : Byte) : b &&& 0xFF#8 = b := BitVec.and_allOnes

theorem encodeP0_and_mask (e : RmEncoding) : encodeP0 e &&& 0x9F#8 = 0x93#8 := by
  unfold encodeP0
  generalize e.x = x
  generalize e.b = b
  revert x b
  decide

theorem encodeP1_and_mask (vs1 : VReg) : encodeP1 vs1 &&& 0x87#8 = 0x05#8 := by
  unfold encodeP1
  generalize BitVec.ofNat 4 vs1.val = low
  revert low
  decide

theorem encodeP2_and_mask (vl : VLen) (vs1 : VReg) (kw : Option KReg) :
    encodeP2 vl vs1 kw &&& 0xF0#8 = 0#1 ++ vl.ll ++ 0#5 := by
  unfold encodeP2
  generalize BitVec.ofNat 1 (vs1.val / 16) = high
  generalize aaaOf kw = aaa
  generalize vl.ll = ll
  revert high aaa ll
  decide

theorem matchOf_eq (i : Instr) :
    matchOf i = (0x62#8 ++ 0x93#8 ++ 0x05#8 ++ (0#1 ++ i.vlen.ll ++ 0#5 : Byte) ++ i.signedness.opcode).toNat := by
  cases i <;> rw [matchOf, Instr.vlen, Instr.signedness] <;> rfl

/-- Settles O4: the accepted bytes are an encoding (O2), whose bytes under the mask keep only the row's fields. -/
theorem acceptedBytesMatchTheRowPattern : Obligations.AcceptedBytesMatchTheRowPattern := by
  intro policy bs i rest h
  obtain ⟨rfl, -, -⟩ := acceptedBytesAreTheEncoding policy bs i rest h
  rw [encode_append, bytesWith, firstFive_and_mask, and_0xFF, and_0xFF, encodeP0_and_mask, encodeP1_and_mask,
    encodeP2_and_mask, matchOf_eq]

/-! ### The length -/

theorem toNat_field_low (b : Byte) : (field b 0 3).toNat = b.toNat % 8 := BitVec.extractLsb'_toNat ..

theorem toNat_field_high (b : Byte) : (field b 6 2).toNat = b.toNat / 64 := by
  have hb := b.isLt
  rw [field, BitVec.extractLsb'_toNat, Nat.shiftRight_eq_div_pow]
  omega

/-- The count of 30_encoding.md R59, read off the fields `mod`, `rm` and `bs`. -/
theorem extraFromBytes_eq (modrm sib : Byte) :
    extraFromBytes modrm sib =
      (if field modrm 6 2 ≠ 3#2 ∧ field modrm 0 3 = 4#3 then 1 else 0) +
        if field modrm 6 2 = 3#2 then 0
        else if (field modrm 6 2 = 0#2 ∧ field modrm 0 3 = 5#3) ∨
          (field modrm 6 2 = 0#2 ∧ field modrm 0 3 = 4#3 ∧ field sib 0 3 = 5#3) ∨ field modrm 6 2 = 2#2 then 4
        else if field modrm 6 2 = 1#2 then 1 else 0 := by
  simp only [extraFromBytes, ne_eq, BitVec.toNat_eq, toNat_field_low, toNat_field_high]
  rfl

theorem Disp.length_eq (disp : Disp) :
    disp.length = if disp.mod = 2#2 then 4 else if disp.mod = 1#2 then 1 else 0 := by
  cases disp <;> rfl

/-- ModRM and the byte after it announce the SIB and displacement bytes that the encoder writes. -/
theorem extraFromBytes_encode {src2 : Src2} (hwf : src2.wellFormed = true) (kd : KReg) {imm8 b6 : Byte}
    (h6 : ((encodeSrc2 src2).tail ++ [imm8])[0]? = some b6) :
    extraFromBytes (encodeModrm (encodeSrc2 src2) kd) b6 = src2.extraLength := by
  obtain ⟨hmd, -, hrm⟩ := eq_encodeModrm_iff.mp (rfl : encodeModrm (encodeSrc2 src2) kd = _)
  rw [extraFromBytes_eq, hmd, hrm]
  rcases src2 with n | d | ⟨g, disp⟩ | ⟨g, index, disp⟩ | ⟨index, d⟩
  · rfl
  · rfl
  · obtain ⟨h4, h5⟩ := MemOperand.base_wellFormed_iff.mp hwf
    simp [encodeSrc2, Src2.extraLength, Disp.length_eq, disp.mod_ne_three, h4, h5] <;> rfl
  · obtain ⟨hindex, h5⟩ := MemOperand.sib_wellFormed_iff.mp hwf
    obtain ⟨-, hbs⟩ := indexOf_sibByte hindex (gregLow3 g)
    cases Option.some.inj h6
    simp [encodeSrc2, Src2.extraLength, Disp.length_eq, disp.mod_ne_three, hbs, h5] <;> rfl
  · obtain ⟨-, hbs⟩ := indexOf_sibByte hwf 5#3
    cases Option.some.inj h6
    simp [encodeSrc2, Src2.extraLength, hbs]

/-- Settles O3: the encoding has as many bytes as the model counts (`encodingShape_of`), which is what bytes 5 and 6
announce. -/
theorem encodingLengthFromModrmAndSib : Obligations.EncodingLengthFromModrmAndSib := by
  intro i hwf
  obtain ⟨-, hsrc⟩ := Bool.and_eq_true_iff.mp hwf
  obtain ⟨hlen, -, -⟩ := Laws.encodingShape_of i
  obtain ⟨hge, hle⟩ := i.length_bounds
  refine ⟨fun n hn => ?_, hlen ▸ hge, hlen ▸ hle, fun h5 h6 => ?_⟩
  · rw [hlen, Instr.length, hn]
    rfl
  · have hmodrm : (encode i)[5] = encodeModrm (encodeSrc2 i.operands.src2) i.operands.kd := rfl
    have hnext : ((encodeSrc2 i.operands.src2).tail ++ [i.operands.imm8])[0]? = some (encode i)[6] :=
      List.getElem?_eq_getElem h6
    rw [hlen, hmodrm, extraFromBytes_encode hsrc _ hnext, Instr.length, Src2.instrLength]

end Sys2Proof
end

section
/-! SUPPORT. O6: an encoding in which one byte of the bytes 0 to 4 is replaced. -/

namespace Sys2Proof

theorem signednessOf_opcode (sg : Signedness) : signednessOf sg.opcode = some sg := signednessOf_eq_some_iff.mpr rfl

theorem vlenOf_ll (vl : VLen) : vlenOf vl.ll = some vl := (vlenOf_eq_some_iff _ _).mpr rfl

theorem signednessOf_eq_none {op : Byte} (hE : op ≠ 0x3E#8) (hF : op ≠ 0x3F#8) : signednessOf op = none := by
  rw [signednessOf, if_neg hF, if_neg hE]

section
variable {vs1 : VReg} {vl : VLen} {kw : Option KReg} {sg : Signedness}

theorem decodeForm_of_escape {b0 p0 p1 p2 op : Byte} (h : b0 ≠ 0x62#8) :
    decodeForm b0 p0 p1 p2 op = .error .notThisInstruction := if_pos h

theorem decodeForm_of_opcode {b0 p0 p1 p2 op : Byte} (h : signednessOf op = none) :
    decodeForm b0 p0 p1 p2 op = .error .notThisInstruction := by
  simp only [decodeForm, h, ite_self]

/-- What the tests answer for any `P0` between encoded bytes. -/
theorem decodeForm_p0 (p0 : Byte) :
    decodeForm 0x62#8 p0 (encodeP1 vs1) (encodeP2 vl vs1 kw) sg.opcode =
      if field p0 0 2 ≠ 3#2 then .error .notThisInstruction
      else if field p0 2 2 ≠ 0#2 then .error .reservedPrefixBits
      else if field p0 7 1 ≠ 1#1 ∨ field p0 4 1 ≠ 1#1 then .error .maskRegExtension
      else .ok (sg, vl) := by
  obtain ⟨h17, -, h12, h10⟩ := eq_encodeP1_iff.mp (rfl : encodeP1 vs1 = _)
  obtain ⟨h27, h25, h24, -, -⟩ := eq_encodeP2_iff.mp (rfl : encodeP2 vl vs1 kw = _)
  simp [decodeForm, signednessOf_opcode, vlenOf_ll, h17, h12, h10, h27, h25, h24]

/-- What the tests answer for any `P1` between encoded bytes. -/
theorem decodeForm_p1 (e : RmEncoding) (p1 : Byte) :
    decodeForm 0x62#8 (encodeP0 e) p1 (encodeP2 vl vs1 kw) sg.opcode =
      if field p1 0 2 ≠ 1#2 then .error .notThisInstruction
      else if field p1 7 1 ≠ 0#1 then .error .w1OtherInstruction
      else if field p1 2 1 ≠ 1#1 then .error .reservedPrefixBits
      else .ok (sg, vl) := by
  obtain ⟨h07, -, -, h04, h02, h00⟩ := eq_encodeP0_iff.mp (rfl : encodeP0 e = _)
  obtain ⟨h27, h25, h24, -, -⟩ := eq_encodeP2_iff.mp (rfl : encodeP2 vl vs1 kw = _)
  simp [decodeForm, signednessOf_opcode, vlenOf_ll, h07, h04, h02, h00, h27, h25, h24]

/-- What the tests answer for any `P2` between encoded bytes. -/
theorem decodeForm_p2 (e : RmEncoding) (p2 : Byte) :
    decodeForm 0x62#8 (encodeP0 e) (encodeP1 vs1) p2 sg.opcode =
      if field p2 7 1 ≠ 0#1 then .error .zSet
      else if field p2 4 1 ≠ 0#1 then .error .bSet
      else (vlenOf (field p2 5 2)).elim (.error .badVectorLength) fun vl => .ok (sg, vl) := by
  obtain ⟨h07, -, -, h04, h02, h00⟩ := eq_encodeP0_iff.mp (rfl : encodeP0 e = _)
  obtain ⟨h17, -, h12, h10⟩ := eq_encodeP1_iff.mp (rfl : encodeP1 vs1 = _)
  cases h : vlenOf (field p2 5 2) <;>
    simp [decodeForm, signednessOf_opcode, h, h07, h04, h02, h00, h17, h12, h10]

end

section
variable {policy : ImmPolicy} {i : Instr} {rest : List Byte} {f : Byte → Byte} {r : DecodeReason}

theorem decode_set_escape {b : Byte} (h : b ≠ 0x62#8) :
    decode policy ((encode i ++ rest).set 0 b) = .error .notThisInstruction := by
  rw [encode_append]
  exact decode_of_decodeForm_eq_error (decodeForm_of_escape h)

theorem decode_set_opcode {b : Byte} (h : signednessOf b = none) :
    decode policy ((encode i ++ rest).set 4 b) = .error .notThisInstruction := by
  rw [encode_append]
  exact decode_of_decodeForm_eq_error (decodeForm_of_opcode h)

theorem decode_modify_p0 (h : decodeForm 0x62#8 (f (encodeP0 (encodeSrc2 i.operands.src2))) (encodeP1 i.operands.vs1)
      (encodeP2 i.vlen i.operands.vs1 i.operands.kw) i.signedness.opcode = .error r) :
    decode policy ((encode i ++ rest).modify 1 f) = .error r := by
  rw [encode_append]
  exact decode_of_decodeForm_eq_error h

theorem decode_modify_p1 (h : decodeForm 0x62#8 (encodeP0 (encodeSrc2 i.operands.src2)) (f (encodeP1 i.operands.vs1))
      (encodeP2 i.vlen i.operands.vs1 i.operands.kw) i.signedness.opcode = .error r) :
    decode policy ((encode i ++ rest).modify 2 f) = .error r := by
  rw [encode_append]
  exact decode_of_decodeForm_eq_error h

theorem decode_modify_p2 (h : decodeForm 0x62#8 (encodeP0 (encodeSrc2 i.operands.src2)) (encodeP1 i.operands.vs1)
      (f (encodeP2 i.vlen i.operands.vs1 i.operands.kw)) i.signedness.opcode = .error r) :
    decode policy ((encode i ++ rest).modify 3 f) = .error r := by
  rw [encode_append]
  exact decode_of_decodeForm_eq_error h

/-- Clearing bits of `P0`, stored `R` or `R'` among them and the map bits not. -/
theorem decode_and_p0 {c : Byte} (hmap : field c 0 2 = 3#2) (h : field c 7 1 = 0#1 ∨ field c 4 1 = 0#1) :
    decode policy ((encode i ++ rest).modify 1 (· &&& c)) = .error .maskRegExtension := by
  obtain ⟨-, -, -, -, h02, h00⟩ := eq_encodeP0_iff.mp (rfl : encodeP0 (encodeSrc2 i.operands.src2) = _)
  refine decode_modify_p0 ?_
  rw [decodeForm_p0, field_and, field_and, field_and, field_and, h02, h00, hmap, BitVec.zero_and, if_neg (by decide),
    if_neg (by decide), if_pos]
  rcases h with h | h
  · exact .inl (by rw [h, BitVec.and_zero]; decide)
  · exact .inr (by rw [h, BitVec.and_zero]; decide)

end

theorem ofNat_two_ne {v n : Nat} (hv : v < 4) (hn : n < 4) (hne : v ≠ n) : BitVec.ofNat 2 v ≠ BitVec.ofNat 2 n := by
  intro h
  have := congrArg BitVec.toNat h
  rw [BitVec.toNat_ofNat, BitVec.toNat_ofNat] at this
  omega

/-- Bits 1:0 replaced by `v` hold `v`. -/
theorem field_replaced_low (b : Byte) {v : Nat} (hv : v < 4) :
    field ((b &&& 0xFC#8) ||| BitVec.ofNat 8 v) 0 2 = BitVec.ofNat 2 v := by
  have hclear : field 0xFC#8 0 2 = 0#2 := rfl
  have hv' : ∀ v < 4, field (BitVec.ofNat 8 v) 0 2 = BitVec.ofNat 2 v := by decide
  rw [field_or, field_and, hclear, BitVec.and_zero, BitVec.zero_or, hv' v hv]

/-- `v` joined to bits 3:2 leaves bits 1:0 as they are. -/
theorem field_or_four_mul (b : Byte) {v : Nat} (hv : v < 4) :
    field (b ||| BitVec.ofNat 8 (4 * v)) 2 2 = field b 2 2 ||| BitVec.ofNat 2 v ∧
      field (b ||| BitVec.ofNat 8 (4 * v)) 0 2 = field b 0 2 := by
  have hv' : ∀ v < 4, field (BitVec.ofNat 8 (4 * v)) 2 2 = BitVec.ofNat 2 v ∧
    field (BitVec.ofNat 8 (4 * v)) 0 2 = 0#2 := by decide
  obtain ⟨h2, h0⟩ := hv' v hv
  rw [field_or, field_or, h2, h0, BitVec.or_zero]
  exact ⟨rfl, rfl⟩

theorem vlenOf_or_three (ll : BitVec 2) : vlenOf (ll ||| 3#2) = none := by
  revert ll
  decide

/-- Settles O6: a changed bit fails its own test, and the tests before it read other fields. -/
theorem changedFixedFieldIsRefusedByName : Obligations.ChangedFixedFieldIsRefusedByName := by
  intro policy i rest bs
  obtain ⟨-, -, -, -, h02, h00⟩ := eq_encodeP0_iff.mp (rfl : encodeP0 (encodeSrc2 i.operands.src2) = _)
  obtain ⟨h17, -, h12, h10⟩ := eq_encodeP1_iff.mp (rfl : encodeP1 i.operands.vs1 = _)
  obtain ⟨h27, -, h24, -, -⟩ := eq_encodeP2_iff.mp (rfl : encodeP2 i.vlen i.operands.vs1 i.operands.kw = _)
  refine ⟨fun b hb => decode_set_escape hb, fun v hv => ?map, fun v hv hne => ?pp,
    fun b hE hF => decode_set_opcode (signednessOf_eq_none hE hF), ?w, fun v hv hne => ?p0Reserved, ?p1Reserved,
    decode_and_p0 rfl (.inl rfl), decode_and_p0 rfl (.inr rfl), ?z, ?b, ?ll⟩
  case map =>
    have hmap := field_replaced_low (encodeP0 (encodeSrc2 i.operands.src2)) (v := v) (by omega)
    refine decode_modify_p0 ?_
    rw [decodeForm_p0, hmap, if_pos (ofNat_two_ne (by omega) (by decide) (by omega))]
  case pp =>
    refine decode_modify_p1 ?_
    rw [decodeForm_p1, field_replaced_low _ hv, if_pos (ofNat_two_ne hv (by decide) hne)]
  case w =>
    refine decode_modify_p1 ?_
    rw [decodeForm_p1, field_or, field_or, h10, h17, if_neg (by decide), if_pos (by decide)]
  case p0Reserved =>
    obtain ⟨h2, h0⟩ := field_or_four_mul (encodeP0 (encodeSrc2 i.operands.src2)) hv
    refine decode_modify_p0 ?_
    rw [decodeForm_p0, h2, h0, h00, h02, BitVec.zero_or, if_neg (by decide),
      if_pos (ofNat_two_ne hv (by decide) hne)]
  case p1Reserved =>
    refine decode_modify_p1 ?_
    rw [decodeForm_p1, field_and, field_and, field_and, h10, h17, h12, if_neg (by decide), if_neg (by decide),
      if_pos (by decide)]
  case z =>
    refine decode_modify_p2 ?_
    rw [decodeForm_p2, field_or, h27, if_pos (by decide)]
  case b =>
    refine decode_modify_p2 ?_
    rw [decodeForm_p2, field_or, field_or, h27, h24, if_neg (by decide), if_pos (by decide)]
  case ll =>
    have hll : field 0x60#8 5 2 = 3#2 := rfl
    refine decode_modify_p2 ?_
    rw [decodeForm_p2, field_or, field_or, field_or, h27, h24, hll, vlenOf_or_three, if_neg (by decide),
      if_neg (by decide)]
    rfl

end Sys2Proof
end

section
/-! SUPPORT. O7: an encoding in which stored `X` or stored `B` is flipped spells operand 3 with that bit complemented,
and the decoder refuses the complement of an unused one. -/

namespace Sys2Proof

theorem encodeP0_flip_x (e : RmEncoding) : encodeP0 e ^^^ 0x40#8 = encodeP0 { e with x := ~~~ e.x } := by
  obtain ⟨x, b, md, rm, tail⟩ := e
  unfold encodeP0
  dsimp only
  revert x b
  decide

theorem encodeP0_flip_b (e : RmEncoding) : encodeP0 e ^^^ 0x20#8 = encodeP0 { e with b := ~~~ e.b } := by
  obtain ⟨x, b, md, rm, tail⟩ := e
  unfold encodeP0
  dsimp only
  revert x b
  decide

theorem decodeMem_ripRel_unused {x b : BitVec 1} {bs : List Byte} (h : x ≠ 0#1 ∨ b ≠ 0#1) :
    decodeMem x b 0#2 5#3 bs = .error .unusedXorB := by
  unfold decodeMem
  rw [if_neg (by decide), if_pos (by decide), if_pos h]

theorem decodeMem_base_unused {x b : BitVec 1} {md : BitVec 2} {rm : BitVec 3} {bs : List Byte} (hrm : rm ≠ 4#3)
    (h : ¬ (md = 0#2 ∧ rm = 5#3)) (hx : x ≠ 0#1) : decodeMem x b md rm bs = .error .unusedXorB := by
  unfold decodeMem
  rw [if_neg hrm, if_neg h, if_pos hx]

theorem decodeMem_sibNoBase_unused {x b : BitVec 1} {sib : Byte} {bs : List Byte} (hbs : field sib 0 3 = 5#3)
    (hb : b ≠ 0#1) : decodeMem x b 0#2 4#3 (sib :: bs) = .error .unusedXorB := by
  simp only [decodeMem, decodeSib, hbs, and_self, if_true, if_pos hb]

theorem decodeSrc2_eq_error {e : RmEncoding} {kd : KReg} {bs : List Byte} {r : DecodeReason} (hmd : e.md ≠ 3#2)
    (h : decodeMem e.x e.b e.md e.rm bs = .error r) :
    decodeSrc2 (encodeP0 e) (encodeModrm e kd) bs = .error r := by
  obtain ⟨-, hx, hb, -, -, -⟩ := eq_encodeP0_iff.mp (rfl : encodeP0 e = _)
  obtain ⟨hmd', -, hrm⟩ := eq_encodeModrm_iff.mp (rfl : encodeModrm e kd = _)
  simp only [decodeSrc2, hx, hb, hmd', hrm, BitVec.not_not, if_neg hmd, h]

theorem decode_bytesWith_eq_error {policy : ImmPolicy} {i : Instr} {e : RmEncoding} {tail : List Byte}
    {r : DecodeReason} (hmd : e.md ≠ 3#2) (h : decodeMem e.x e.b e.md e.rm tail = .error r) :
    decode policy (bytesWith i e tail) = .error r :=
  decode_of_decodeSrc2_eq_error (decodeForm_bytesWith i e) (decodeSrc2_eq_error hmd h)

theorem encode_append_flip_x (i : Instr) (rest : List Byte) :
    (encode i ++ rest).modify 1 (· ^^^ 0x40#8) =
      bytesWith i { encodeSrc2 i.operands.src2 with x := ~~~ (encodeSrc2 i.operands.src2).x }
        ((encodeSrc2 i.operands.src2).tail ++ i.operands.imm8 :: rest) := by
  rw [encode_append, bytesWith, bytesWith, ← encodeP0_flip_x]
  rfl

theorem encode_append_flip_b (i : Instr) (rest : List Byte) :
    (encode i ++ rest).modify 1 (· ^^^ 0x20#8) =
      bytesWith i { encodeSrc2 i.operands.src2 with b := ~~~ (encodeSrc2 i.operands.src2).b }
        ((encodeSrc2 i.operands.src2).tail ++ i.operands.imm8 :: rest) := by
  rw [encode_append, bytesWith, bytesWith, ← encodeP0_flip_b]
  rfl

/-- Settles O7: in each of the three modes the flipped bit is one the encoder leaves 0, so its complement is not 0. -/
theorem unusedExtensionBitIsRefused : Obligations.UnusedExtensionBitIsRefused := by
  intro policy i rest hwf
  obtain ⟨-, hsrc⟩ := Bool.and_eq_true_iff.mp hwf
  have hone : ~~~ 0#1 ≠ 0#1 := by decide
  dsimp only
  rw [encode_append_flip_x, encode_append_flip_b]
  refine ⟨fun d hm => ⟨?_, ?_⟩, fun g disp hm => ?_, fun index d hm => ?_⟩ <;> rw [hm] at hsrc ⊢
  · exact decode_bytesWith_eq_error (encodeSrc2_mem_md_ne_three _) (decodeMem_ripRel_unused (.inl hone))
  · exact decode_bytesWith_eq_error (encodeSrc2_mem_md_ne_three _) (decodeMem_ripRel_unused (.inr hone))
  · obtain ⟨h4, h5⟩ := MemOperand.base_wellFormed_iff.mp hsrc
    exact decode_bytesWith_eq_error (encodeSrc2_mem_md_ne_three _) (decodeMem_base_unused h4 h5 hone)
  · obtain ⟨-, hbs⟩ := indexOf_sibByte hsrc 5#3
    exact decode_bytesWith_eq_error (encodeSrc2_mem_md_ne_three _) (decodeMem_sibNoBase_unused hbs hone)

end Sys2Proof
end

section
/-! SUPPORT. O8: the reserved immediate bits. -/

namespace Sys2Proof.Machine

open Sys2Proof.Claims

theorem immAdmitted_refuse_iff (imm8 : Byte) : immAdmitted .refuse imm8 = true ↔ imm8.toNat < 8 := by
  revert imm8
  decide

theorem predicateOfImm_and_seven (imm8 : Byte) : predicateOfImm (imm8 &&& 7#8) = predicateOfImm imm8 := by
  have h : BitVec.extractLsb' 0 3 (imm8 &&& 7#8) = imm8.extractLsb' 0 3 := by
    rw [BitVec.extractLsb'_and]
    exact BitVec.and_allOnes
  rw [predicateOfImm, h, predicateOfImm]

theorem exec_withImm8 {i : Instr} {imm8 : Byte} (h : predicateOfImm imm8 = predicateOfImm i.operands.imm8)
    (s : State) : exec (withImm8 i imm8) s = exec i s := by
  rw [exec_eq_compareInto, exec_eq_compareInto, withImm8, Instr.signedness_ofForm, Instr.vlen_ofForm,
    Instr.operands_ofForm, compareInto, compareInto, h]

/-- Settles O8: the encoding is refused for nothing but the immediate (`decode_encode`), and an instruction reads only
the predicate of its immediate. -/
theorem reservedImmediateBitsFollowThePolicy : Obligations.ReservedImmediateBitsFollowThePolicy := by
  intro i rest hwf himm
  refine ⟨?_, ?_, fun s => (exec_withImm8 (predicateOfImm_and_seven _) s).symm⟩
  · rw [decode_encode hwf, if_neg]
    rw [immAdmitted_refuse_iff]
    omega
  · rw [decode_encode hwf]
    rfl

end Sys2Proof.Machine
end

section
/-! SUPPORT. O10: a step on an encoding that stands at `pc`. -/

namespace Sys2Proof.Machine

/-- Bytes that memory holds from `pc` on stand at the front of the fetched ones. -/
theorem fetchWindow_of_holdsBytes {s : State} {bs : List Byte} (h : holdsBytes s.mem s.pc bs)
    (hlen : bs.length ≤ Config.maxLength) : ∃ rest, fetchWindow s = bs ++ rest := by
  obtain ⟨rest, hrest⟩ : bs <+: fetchWindow s := by
    have hwin : (fetchWindow s).length = Config.maxLength := s.mem.length_bytesFrom s.pc _
    refine List.prefix_iff_getElem.mpr ⟨hlen.trans_eq hwin.symm, fun t ht => ?_⟩
    exact (h t ht).symm.trans (s.mem.getElem_bytesFrom s.pc _ t _).symm
  exact ⟨rest, hrest.symm⟩

/-- In another mode both sides are the same refusal (entry 11). -/
theorem step_of_fetchDecode_eq_ok {s : State} {i : Instr} (h : fetchDecode s = .ok i) : step s = exec i s := by
  rcases step_cases s with ⟨hmode, hstep⟩ | ⟨-, r, hr, -⟩ | ⟨-, j, hj, hstep⟩
  · rw [hstep, exec_of_gate_eq_some (r := .refused (.not64BitMode s.pc))]
    rw [gate, if_pos hmode, refuse]
  · rw [h] at hr
    cases hr
  · rw [h] at hj
    cases hj
    exact hstep

/-- Settles O10: the fetched bytes are the encoding and some rest, which decode to the instruction (O1). -/
theorem stepRunsTheEncodingAtPc : Obligations.StepRunsTheEncodingAtPc := by
  intro s i hwf himm hbytes
  have hlen : (encode i).length ≤ Config.maxLength := (Laws.encodingShape_of i).1.trans_le i.length_bounds.2
  obtain ⟨rest, hwin⟩ := fetchWindow_of_holdsBytes hbytes hlen
  apply step_of_fetchDecode_eq_ok
  rw [fetchDecode, hwin, decodeOfEncodeIsTheInstruction _ i rest hwf himm]

end Sys2Proof.Machine
end

section
/-! SUPPORT. O28: effective addresses as integers modulo `2^64`. -/

namespace Sys2Proof.Machine

open Sys2Proof.Claims

theorem toNat_ofInt_eq (n : Int) : ((BitVec.ofInt 64 n).toNat : Int) = n % 2 ^ 64 := by
  rw [BitVec.toNat_ofInt, Int.toNat_of_nonneg (Int.emod_nonneg _ (by decide))]
  rfl

theorem ofInt_toNat (a : Addr) : BitVec.ofInt 64 a.toNat = a := by
  rw [BitVec.ofInt_natCast, BitVec.ofNat_toNat, BitVec.setWidth_eq]

theorem dispValue_eq_ofInt (vl : VLen) (disp : Disp) : dispValue vl disp = BitVec.ofInt 64 (dispNumber vl disp) := by
  cases disp with
  | none => rfl
  | d8 d => rw [dispValue, dispNumber, BitVec.ofInt_mul, BitVec.ofInt_natCast, width_eq_bytes, BitVec.signExtend]
  | d32 d => rfl

theorem indexTerm_eq_ofInt (index : Index) (s : State) :
    indexTerm index s = BitVec.ofInt 64 (indexNumber index s) := by
  rw [BitVec.ofInt_natCast, indexTerm, indexNumber]
  cases index.reg with
  | none => rfl
  | some g =>
    apply BitVec.eq_of_toNat_eq
    rw [BitVec.toNat_shiftLeft, Nat.shiftLeft_eq, BitVec.toNat_ofNat]

/-- Settles O28: each term of the address is the 64-bit word of its integer, and words add as integers do modulo
`2^64`. -/
theorem effectiveAddressOfEveryMode : Obligations.EffectiveAddressOfEveryMode := by
  intro vl len s
  have hlen : BitVec.ofNat 64 len = BitVec.ofInt 64 len := (BitVec.ofInt_natCast ..).symm
  refine ⟨fun d => ?_, fun b disp => ?_, fun b index disp => ?_, fun index d => ?_⟩
  · rw [effAddr, hlen, ← toNat_ofInt_eq, BitVec.ofInt_add, BitVec.ofInt_add, ofInt_toNat, BitVec.signExtend]
  · rw [effAddr, dispValue_eq_ofInt, ← toNat_ofInt_eq, BitVec.ofInt_add, ofInt_toNat]
  · rw [effAddr, dispValue_eq_ofInt, indexTerm_eq_ofInt, ← toNat_ofInt_eq, BitVec.ofInt_add, BitVec.ofInt_add,
      ofInt_toNat]
  · rw [effAddr, indexTerm_eq_ofInt, ← toNat_ofInt_eq, BitVec.ofInt_add, BitVec.signExtend]

end Sys2Proof.Machine
end

section
/-! SUPPORT. O35, O37: a comparison under a name, of a pseudo-op or of an intrinsic. -/

namespace Sys2Proof.Machine

open Sys2Proof.Claims

theorem byteValue_eq_number (sg : Signedness) (b : Byte) : byteValue sg b = number sg b := by
  cases sg with
  | signed => rw [byteValue, number, sint8, uint8, BitVec.toInt_eq_msb_cond, BitVec.msb_eq_getLsbD_last]; rfl
  | unsigned => rfl

theorem VLen.eight_mul_kl (vl : VLen) : 8 * vl.kl = vl.bits := by cases vl <;> rfl

theorem lane_lowBits {vl : VLen} {j : Nat} (a : Vec) (hj : j < vl.kl) : lane (lowBits vl a) j = lane a j := by
  have hbits := VLen.eight_mul_kl vl
  apply BitVec.eq_of_getLsbD_eq
  intro n hn
  simp only [lane, BitVec.getLsbD_extractLsb', lowBits_getLsbD]
  simp [show 8 * j + n < vl.bits by omega]

theorem laneHolds_eq_relHolds {sg : Signedness} {p : Predicate} {a b : Vec} {j : Nat} :
    laneHolds sg p a b j = relHolds p (number sg (element a j)) (number sg (element b j)) := by
  rw [laneHolds, byteValue_eq_number, byteValue_eq_number, element_eq_lane, element_eq_lane]

theorem relHolds_pseudo_iff (c : PseudoCond) (a b : Int) :
    relHolds (predicateOfImm c.imm8) a b = true ↔ pseudoRelation c a b := by
  cases c <;> simp [PseudoCond.imm8, predicateOfImm, predicateOf, relHolds, pseudoRelation]

theorem relHolds_named_iff (c : IntrinsicCond) (a b : Int) :
    relHolds (predicateOfImm c.imm8) a b = true ↔ namedRelation c a b := by
  cases c <;> simp [IntrinsicCond.imm8, predicateOfImm, predicateOf, relHolds, namedRelation]

/-- Bit `j` that a completed register form leaves in its destination. -/
theorem exec_reg_getLsbD {i : Instr} {s t : State} {n : VReg} (h : exec i s = .next t)
    (hsrc : i.operands.src2 = .reg n) (j : Nat) :
    (t.kreg i.operands.kd).getLsbD j =
      (decide (j < i.vlen.kl) && (fetchMask i.operands.kw s).all (fun m => m.getLsbD j) &&
        relHolds (predicateOfImm i.operands.imm8) (number i.signedness (element (s.vreg i.operands.vs1) j))
          (number i.signedness (element (s.vreg n) j))) := by
  obtain ⟨b, -, hb, rfl⟩ := exec_eq_next h
  rw [hsrc, fetchSrc2, Except.ok.injEq] at hb
  rw [State.kreg_setPc, State.kreg_setK_self, vpcmp_getLsbD _ _ _ _ _ _ _ (VLen.kl_le _), ← hb, fetchSrc1]
  by_cases hj : j < i.vlen.kl
  · rw [laneHolds, lane_lowBits _ hj, lane_lowBits _ hj, ← laneHolds, laneHolds_eq_relHolds]
  · simp only [hj, decide_false, Bool.false_and]

/-- Settles O35: the pseudo-op's line is the unmasked register form with the condition's predicate. -/
theorem pseudoOpsCompareAsNamed : Obligations.PseudoOpsCompareAsNamed := by
  intro c sg cls kd vs1 vs2
  refine ⟨.ofForm sg cls { kd := kd, kw := none, vs1 := vs1, src2 := .reg vs2, imm8 := c.imm8 }, rfl,
    fun s t h j _ => ?_⟩
  have hbit := exec_reg_getLsbD (n := vs2) h (by rw [Instr.operands_ofForm]) j
  simp only [Instr.operands_ofForm, Instr.vlen_ofForm, Instr.signedness_ofForm, fetchMask, Option.map_none,
    Option.all_none, Bool.and_true] at hbit
  rw [hbit, Bool.and_eq_true, decide_eq_true_iff, relHolds_pseudo_iff, width_eq_kl]

/-- Settles O37: a lane of the value is in effect where the mask lets it, and the name's immediate selects the relation
the name spells. -/
theorem namedIntrinsicsCompareAsNamed : Obligations.NamedIntrinsicsCompareAsNamed := by
  intro f c m a b cmp hc j hj
  rw [width_eq_kl] at hj
  have hmask : (if f.masked then some (m.setWidth 64) else none : Option Mask).all (fun x => x.getLsbD j) = true ↔
      (f.masked = true → m.getLsbD j = true) := by
    have hj64 : j < 64 := hj.trans_le (VLen.kl_le f.vl)
    cases f.masked <;> simp [hj64]
  rw [Intrinsic.value, BitVec.getLsbD_setWidth, vpcmp_getLsbD _ _ _ _ _ _ _ (VLen.kl_le f.vl), decide_eq_true hj,
    Bool.true_and, Bool.true_and, Bool.and_eq_true, hmask, laneHolds_eq_relHolds, Intrinsic.imm8, hc,
    relHolds_named_iff]

end Sys2Proof.Machine
end

section
/-! SUPPORT. O9: a step on bytes that decode. -/

namespace Sys2Proof.Machine

/-- Settles O9: the decoded bytes are the fetched ones, and `exec` asks for the mode itself (entry 11). -/
theorem stepRunsTheDecodedInstruction : Obligations.StepRunsTheDecodedInstruction := by
  intro s i rest h
  apply step_of_fetchDecode_eq_ok
  rw [fetchDecode, h]

end Sys2Proof.Machine
end

section
/-! SUPPORT. O23, O24: the predicates on integers, and how they tell signed from unsigned bytes. -/

namespace Sys2Proof.Machine

open Sys2Proof.Claims

theorem predicateNumber_cases : ∀ p : BitVec 3,
    p = 0 ∨ p = 1 ∨ p = 2 ∨ p = 3 ∨ p = 4 ∨ p = 5 ∨ p = 6 ∨ p = 7 := by decide

/-- Settles O23: row by row of the table. -/
theorem predicateNumbersMeanTheirRelations : Obligations.PredicateNumbersMeanTheirRelations := by
  intro p a b
  rcases predicateNumber_cases p with rfl | rfl | rfl | rfl | rfl | rfl | rfl | rfl <;>
    simp [predicateOf, relHolds, relation]

/-- The predicate of an immediate is the relation of its low three bits (30_encoding.md R58). -/
theorem relHolds_predicateOfImm_iff (imm8 : Byte) (a b : Int) :
    relHolds (predicateOfImm imm8) a b = true ↔ relation (predNumber imm8) a b := by
  rw [predicateOfImm, predicateNumbersMeanTheirRelations, predNumber, ← toNat_field_low, field]

/-! ### The predicates among one another -/

theorem relHolds_neq (a b : Int) : relHolds .neq a b = !relHolds .eq a b := rfl
theorem relHolds_nlt (a b : Int) : relHolds .nlt a b = !relHolds .lt a b := rfl
theorem relHolds_nle (a b : Int) : relHolds .nle a b = !relHolds .le a b := rfl

theorem relHolds_le_eq_or (a b : Int) : relHolds .le a b = (relHolds .lt a b || relHolds .eq a b) := by
  simp [relHolds, le_iff_lt_or_eq]

theorem relHolds_lt_and_eq (a b : Int) : (relHolds .lt a b && relHolds .eq a b) = false := by
  simp only [relHolds, Bool.and_eq_false_iff, decide_eq_false_iff_not]
  omega

theorem relHolds_lt_swap (a b : Int) : relHolds .lt a b = relHolds .nle b a := by
  rw [relHolds, relHolds, ← decide_not, decide_eq_decide, not_le]

theorem relHolds_le_swap (a b : Int) : relHolds .le a b = relHolds .nlt b a := by
  rw [relHolds, relHolds, ← decide_not, decide_eq_decide, not_lt]

/-- Every predicate compares differences only. -/
theorem relHolds_add_right (p : Predicate) (a b c : Int) : relHolds p (a + c) (b + c) = relHolds p a b := by
  cases p <;> simp [relHolds]

/-! ### Signed and unsigned bytes -/

theorem number_inj {sg : Signedness} {a b : Byte} : number sg a = number sg b ↔ a = b := by
  cases sg with
  | signed => exact BitVec.toInt_inj
  | unsigned => exact Int.natCast_inj.trans BitVec.toNat_inj

theorem relHolds_eq_number (sg : Signedness) (a b : Byte) :
    relHolds .eq (number sg a) (number sg b) = decide (a = b) := by simp only [relHolds, number_inj]

/-- With bit 7 set, a byte's signed number is 256 below its unsigned one, which is at least 128. -/
theorem number_signed_cases (b : Byte) :
    (b.getLsbD 7 = true ∧ number .signed b = number .unsigned b - 256 ∧ 128 ≤ number .unsigned b ∧
      number .unsigned b < 256) ∨
    (b.getLsbD 7 = false ∧ number .signed b = number .unsigned b ∧ 0 ≤ number .unsigned b ∧
      number .unsigned b < 128) := by
  have hsign : b.getLsbD 7 = decide (128 ≤ b.toNat) := by
    rw [← BitVec.msb_eq_getLsbD_last, BitVec.msb_eq_decide]
  have hlt := b.isLt
  simp only [number, BitVec.toInt_eq_toNat_cond, hsign, decide_eq_true_iff, decide_eq_false_iff_not]
  by_cases h : 128 ≤ b.toNat
  · rw [if_neg (by omega)]; omega
  · rw [if_pos (by omega)]; omega

/-- A byte with bit 7 set is the lesser one signed and the greater one unsigned. -/
theorem relHolds_lt_signed_eq_unsigned_iff (a b : Byte) :
    relHolds .lt (number .signed a) (number .signed b) = relHolds .lt (number .unsigned a) (number .unsigned b) ↔
      a.getLsbD 7 = b.getLsbD 7 := by
  rw [relHolds, relHolds, decide_eq_decide]
  rcases number_signed_cases a with ⟨ha, hsa, hla, hua⟩ | ⟨ha, hsa, hla, hua⟩ <;>
    rcases number_signed_cases b with ⟨hb, hsb, hlb, hub⟩ | ⟨hb, hsb, hlb, hub⟩ <;>
    rw [ha, hb, hsa, hsb]
  · exact iff_of_true (by omega) rfl
  · exact iff_of_false (by omega) nofun
  · exact iff_of_false (by omega) nofun
  · exact iff_of_true (by omega) rfl

/-- Settles O24: LE, NLT and NLE are LT with its sources swapped or its result negated. -/
theorem signednessMattersExactlyWhenSignBitsDiffer : Obligations.SignednessMattersExactlyWhenSignBitsDiffer := by
  intro a b p
  simp only [byteValue_eq_number]
  constructor
  · rintro (rfl | rfl)
    · change relHolds .eq _ _ = relHolds .eq _ _
      rw [relHolds_eq_number, relHolds_eq_number]
    · change relHolds .neq _ _ = relHolds .neq _ _
      rw [relHolds_neq, relHolds_neq, relHolds_eq_number, relHolds_eq_number]
  · rintro (rfl | rfl | rfl | rfl) <;> apply not_congr
    · exact relHolds_lt_signed_eq_unsigned_iff a b
    · change relHolds .le _ _ = relHolds .le _ _ ↔ _
      rw [relHolds_le_swap, relHolds_le_swap, relHolds_nlt, relHolds_nlt, Bool.not_inj_iff,
        relHolds_lt_signed_eq_unsigned_iff, eq_comm]
    · change relHolds .nlt _ _ = relHolds .nlt _ _ ↔ _
      rw [relHolds_nlt, relHolds_nlt, Bool.not_inj_iff, relHolds_lt_signed_eq_unsigned_iff]
    · change relHolds .nle _ _ = relHolds .nle _ _ ↔ _
      rw [← relHolds_lt_swap, ← relHolds_lt_swap, relHolds_lt_signed_eq_unsigned_iff, eq_comm]

end Sys2Proof.Machine
end

section
/-! SUPPORT. O25, O26, O27: the operand-level function under another predicate, other sources or the other signedness,
each from what the comparison does in one lane. -/

namespace Sys2Proof.Machine

open Sys2Proof.Claims

section
variable {sg sg' : Signedness} {vl : VLen} {p q r : Predicate} {m : Option Mask} {a b a' b' : Vec}

theorem vpcmp_kl_getLsbD (j : Nat) : (vpcmp sg vl.kl p m a b).getLsbD j =
    (decide (j < vl.kl) && (m.all fun x => x.getLsbD j) && laneHolds sg p a b j) :=
  vpcmp_getLsbD _ _ _ _ _ _ _ (VLen.kl_le vl)

theorem maskLow_kl_getLsbD (j : Nat) :
    (maskLow vl.kl m).getLsbD j = (decide (j < vl.kl) && m.all fun x => x.getLsbD j) :=
  maskLow_getLsbD _ _ _ (VLen.kl_le vl)

/-- Under one writemask the result is fixed by the comparisons below the element count. -/
theorem vpcmp_congr (h : ∀ j < vl.kl, laneHolds sg p a b j = laneHolds sg' q a' b' j) :
    vpcmp sg vl.kl p m a b = vpcmp sg' vl.kl q m a' b' := by
  apply BitVec.eq_of_getLsbD_eq
  intro j _
  rw [vpcmp_kl_getLsbD, vpcmp_kl_getLsbD]
  by_cases hj : j < vl.kl
  · rw [h j hj]
  · simp [hj]

theorem vpcmp_false : vpcmp sg vl.kl .false m a b = 0 := by
  apply BitVec.eq_of_getLsbD_eq
  intro j _
  rw [vpcmp_kl_getLsbD]
  simp [laneHolds, relHolds]

theorem vpcmp_true : vpcmp sg vl.kl .true m a b = maskLow vl.kl m := by
  apply BitVec.eq_of_getLsbD_eq
  intro j _
  rw [vpcmp_kl_getLsbD, maskLow_kl_getLsbD]
  simp [laneHolds, relHolds]

/-- A negated predicate complements the result within the writemask. -/
theorem vpcmp_not (h : ∀ x y, relHolds q x y = !relHolds p x y) :
    vpcmp sg vl.kl q m a b = maskLow vl.kl m &&& ~~~ vpcmp sg vl.kl p m a b := by
  apply BitVec.eq_of_getLsbD_eq
  intro j hj
  rw [BitVec.getLsbD_and, BitVec.getLsbD_not, maskLow_kl_getLsbD, vpcmp_kl_getLsbD,
    vpcmp_kl_getLsbD, laneHolds, h, ← laneHolds, decide_eq_true hj, Bool.true_and, Bool.not_and,
    Bool.and_or_distrib_left, Bool.and_not_self, Bool.false_or]

theorem vpcmp_or (h : ∀ x y, relHolds r x y = (relHolds p x y || relHolds q x y)) :
    vpcmp sg vl.kl r m a b = vpcmp sg vl.kl p m a b ||| vpcmp sg vl.kl q m a b := by
  apply BitVec.eq_of_getLsbD_eq
  intro j _
  simp only [BitVec.getLsbD_or, vpcmp_kl_getLsbD, laneHolds, h, Bool.and_or_distrib_left]

theorem vpcmp_and_eq_zero (h : ∀ x y, (relHolds p x y && relHolds q x y) = false) :
    vpcmp sg vl.kl p m a b &&& vpcmp sg vl.kl q m a b = 0 := by
  apply BitVec.eq_of_getLsbD_eq
  intro j _
  refine (Bool.eq_false_of_not_eq_true fun hbit => ?_).trans BitVec.getLsbD_zero.symm
  simp only [BitVec.getLsbD_and, vpcmp_kl_getLsbD, Bool.and_eq_true, laneHolds] at hbit
  obtain ⟨⟨-, hp⟩, -, hq⟩ := hbit
  simpa [hp, hq] using h (byteValue sg (lane a j)) (byteValue sg (lane b j))

theorem vpcmp_eq_unmasked_and : vpcmp sg vl.kl p m a b = vpcmp sg vl.kl p none a b &&& maskLow vl.kl m := by
  apply BitVec.eq_of_getLsbD_eq
  intro j _
  rw [BitVec.getLsbD_and, maskLow_kl_getLsbD, vpcmp_kl_getLsbD,
    vpcmp_kl_getLsbD]
  cases decide (j < vl.kl) <;> simp [Bool.and_comm]

/-- Equal bytes are equal numbers, signed or unsigned. -/
theorem vpcmp_eq_signedness : vpcmp sg' vl.kl .eq m a b = vpcmp sg vl.kl .eq m a b :=
  vpcmp_congr fun j _ => by
    rw [laneHolds_eq_relHolds, laneHolds_eq_relHolds, relHolds_eq_number, relHolds_eq_number]

end

/-- Settles O25: each identity is one between relations of integers, taken lane by lane. -/
theorem predicateResultsAreComplementary : Obligations.PredicateResultsAreComplementary := by
  intro sg vl m a b
  refine ⟨vpcmp_false, vpcmp_true, vpcmp_not relHolds_neq, vpcmp_not relHolds_nlt, vpcmp_not relHolds_nle,
    vpcmp_or relHolds_le_eq_or, vpcmp_and_eq_zero relHolds_lt_and_eq, fun sg' => ⟨vpcmp_eq_signedness, ?_⟩,
    fun p => vpcmp_eq_unmasked_and⟩
  calc vpcmp sg' vl.kl .neq m a b
      = maskLow vl.kl m &&& ~~~ vpcmp sg' vl.kl .eq m a b := vpcmp_not relHolds_neq
    _ = maskLow vl.kl m &&& ~~~ vpcmp sg vl.kl .eq m a b := by rw [vpcmp_eq_signedness]
    _ = vpcmp sg vl.kl .neq m a b := (vpcmp_not relHolds_neq).symm

/-- Settles O26: the relations of integers swap. -/
theorem swappedSourcesSwapTheRelation : Obligations.SwappedSourcesSwapTheRelation :=
  fun _ _ _ _ _ => ⟨vpcmp_congr fun _ _ => relHolds_lt_swap _ _, vpcmp_congr fun _ _ => relHolds_le_swap _ _⟩

/-! ### Flipped sign bits -/

/-- The sign bits of the lowest `n` bytes, as a number. -/
def signBitsBelow (n : Nat) : Nat := (List.range n).foldl (fun n j => n + 0x80 * 2 ^ (8 * j)) 0

theorem signBits_eq : signBits = BitVec.ofNat 512 (signBitsBelow 64) := rfl

theorem signBitsBelow_succ (n : Nat) : signBitsBelow (n + 1) = signBitsBelow n + 0x80 * 2 ^ (8 * n) := by
  rw [signBitsBelow, List.range_succ, List.foldl_append, ← signBitsBelow, List.foldl_cons, List.foldl_nil]

theorem signBitsBelow_lt (n : Nat) : signBitsBelow n < 2 ^ (8 * n) := by
  induction n with
  | zero => exact Nat.one_pos
  | succ n ih =>
    rw [signBitsBelow_succ, Nat.mul_succ, Nat.pow_add]
    omega

theorem toNat_ofNat_signBitsBelow {n w : Nat} (hw : 8 * n ≤ w) :
    (BitVec.ofNat w (signBitsBelow n)).toNat = signBitsBelow n := by
  rw [BitVec.toNat_ofNat, Nat.mod_eq_of_lt]
  exact (signBitsBelow_lt n).trans_le (Nat.pow_le_pow_right Nat.two_pos hw)

theorem signBitsBelow_byte {j n : Nat} (hj : j < n) : signBitsBelow n / 2 ^ (8 * j) % 256 = 0x80 := by
  induction n, hj using Nat.le_induction with
  | base =>
    rw [signBitsBelow_succ, Nat.add_mul_div_right _ _ (Nat.two_pow_pos _), Nat.div_eq_of_lt (signBitsBelow_lt j)]
  | succ n hj ih =>
    have hpow : 0x80 * 2 ^ (8 * n) = 0x80 * 2 ^ (8 * (n - (j + 1))) * 256 * 2 ^ (8 * j) := by
      rw [Nat.mul_assoc, Nat.mul_assoc, show 256 = 2 ^ 8 from rfl, ← Nat.pow_add, ← Nat.pow_add,
        show 8 * (n - (j + 1)) + (8 + 8 * j) = 8 * n by omega]
    rw [signBitsBelow_succ, hpow, Nat.add_mul_div_right _ _ (Nat.two_pow_pos _), Nat.add_mul_mod_self_right, ih]

theorem lane_signBits {j : Nat} (hj : j < 64) : lane signBits j = 0x80#8 := by
  rw [← element_eq_lane, element, signBits_eq, toNat_ofNat_signBitsBelow (by decide)]
  exact BitVec.eq_of_toNat_eq (signBitsBelow_byte hj)

theorem lane_xor_signBits (a : Vec) {j : Nat} (hj : j < 64) : lane (a ^^^ signBits) j = lane a j ^^^ 0x80#8 := by
  rw [← lane_signBits hj]
  exact BitVec.extractLsb'_xor

/-- Flipping bit 7 of a byte moves its signed number up by 128. -/
theorem uint8_xor_signBit : ∀ b : Byte, uint8 (b ^^^ 0x80#8) = sint8 b + 128 := by decide

/-- Settles O27: both numbers of a lane move up by 128, which no comparison sees. -/
theorem signedIsUnsignedOnFlippedSignBits : Obligations.SignedIsUnsignedOnFlippedSignBits := by
  intro vl p m a b
  refine vpcmp_congr fun j hj => ?_
  have hj64 : j < 64 := hj.trans_le (VLen.kl_le vl)
  rw [laneHolds, laneHolds, lane_xor_signBits a hj64, lane_xor_signBits b hj64]
  simp only [byteValue, uint8_xor_signBit, relHolds_add_right]

end Sys2Proof.Machine
end

section
/-! SUPPORT. O17: the page's lane loop bit by bit, a second way to the operand-level function. -/

namespace Sys2Proof.Machine

open Sys2Proof.Claims

theorem laneStep_getLsbD (sg : Signedness) (p : Predicate) (mask : Option Mask) (a b : Vec) (d : Mask) {j : Nat}
    (hj : j < 64) (n : Nat) :
    (laneStep sg p mask a b d j).getLsbD n =
      if n = j then (mask.all fun m => m.getLsbD j) && laneHolds sg p a b j else d.getLsbD n := by
  rw [laneStep]
  split
  next h => rw [setMaskBit_getLsbD _ _ _ _ hj, h, Bool.true_and]
  next h => rw [setMaskBit_getLsbD _ _ _ _ hj, Bool.eq_false_of_not_eq_true h, Bool.false_and]

/-- After `n` turns the bits below `n` hold their lane's result, the others what the destination held. -/
theorem laneLoop_getLsbD (sg : Signedness) (p : Predicate) (mask : Option Mask) (a b : Vec) (d : Mask) {n : Nat}
    (hn : n ≤ 64) (j : Nat) :
    (laneLoop sg p mask a b d n).getLsbD j =
      if j < n then (mask.all fun m => m.getLsbD j) && laneHolds sg p a b j else d.getLsbD j := by
  induction n with
  | zero => rfl
  | succ n ih =>
    rw [laneLoop, laneStep_getLsbD _ _ _ _ _ _ hn, ih (Nat.le_of_succ_le hn)]
    rcases lt_trichotomy j n with hlt | rfl | hgt
    · rw [if_neg hlt.ne, if_pos hlt, if_pos (Nat.lt_succ_of_lt hlt)]
    · rw [if_pos rfl, if_pos (Nat.lt_succ_self _)]
    · rw [if_neg hgt.ne', if_neg hgt.not_gt, if_neg (by omega)]

theorem clearUpper_getLsbD (d : Mask) (kl : Nat) {n : Nat} (hn : n ≤ 64) (j : Nat) :
    (clearUpper d kl n).getLsbD j = (!(decide (kl ≤ j) && decide (j < n)) && d.getLsbD j) := by
  induction n with
  | zero => simp [clearUpper]
  | succ n ih =>
    have ih := ih (Nat.le_of_succ_le hn)
    rw [clearUpper]
    split
    next hkl =>
      rw [setMaskBit_getLsbD _ _ _ _ hn, ih]
      by_cases hj : j = n
      · simp [hj, hkl]
      · simp [hj, show j < n + 1 ↔ j < n by omega]
    next hkl =>
      rw [ih]
      by_cases hj : kl ≤ j
      · simp [hj, show ¬ j < n by omega, show ¬ j < n + 1 by omega]
      · simp [hj]

/-- The page's loop and the operand-level function agree, whatever the destination held (40_vpcmpb_vpcmpub.md R72,
R87). -/
theorem vpcmpByLoop_eq_vpcmp (sg : Signedness) (vl : VLen) (p : Predicate) (mask : Option Mask) (a b : Vec)
    (d : Mask) : vpcmpByLoop sg (width vl) p mask a b d = vpcmp sg vl.kl p mask a b := by
  apply BitVec.eq_of_getLsbD_eq
  intro j hj
  rw [vpcmpByLoop, Config.maxKl, clearUpper_getLsbD _ _ le_rfl, width_eq_kl,
    laneLoop_getLsbD _ _ _ _ _ _ (VLen.kl_le vl), vpcmp_kl_getLsbD]
  by_cases hkl : j < vl.kl
  · simp [hkl, hkl.not_ge]
  · simp [hkl, not_lt.mp hkl, hj]

/-- Settles O17: the loop's result is the operand-level function's, which is what the destination holds and which reads
one element of each source per bit. -/
theorem resultIsThePagesLaneLoop : Obligations.ResultIsThePagesLaneLoop := by
  constructor
  · intro i s t h
    obtain ⟨b, -, hb, rfl⟩ := exec_eq_next h
    refine ⟨b, hb, ?_⟩
    rw [vpcmpByLoop_eq_vpcmp, State.kreg_setPc, State.kreg_setK_self]
  · intro sg vl p m m' a a' b b' d d' j _ ha hb hm
    rw [vpcmpByLoop_eq_vpcmp, vpcmpByLoop_eq_vpcmp, vpcmp_kl_getLsbD, vpcmp_kl_getLsbD, hm, laneHolds_eq_relHolds,
      laneHolds_eq_relHolds, ha, hb]

end Sys2Proof.Machine
end

section
/-! SUPPORT. O14, O15, O16: the whole effect of a completed instruction, in the words of the statements. -/

namespace Sys2Proof.Machine

open Sys2Proof.Claims

theorem fetchMask_all_iff (kw : Option KReg) (s : State) (j : Nat) :
    (fetchMask kw s).all (fun m => m.getLsbD j) = true ↔ laneEnabled kw s j := by
  cases kw <;> simp [fetchMask, laneEnabled]

/-- Element `j` of the fetched second source: of the register, or the byte at `EA + j` (20_memory.md R33). -/
theorem element_of_fetchSrc2_eq_ok {vl : VLen} {src2 : Src2} {s : State} {b : Vec} (h : fetchSrc2 vl src2 s = .ok b)
    {j : Nat} (hj : j < width vl) : element b j = secondElement vl src2 s j := by
  cases src2 with
  | reg n =>
    cases h
    rw [element_eq_lane, lane_lowBits _ (by rwa [← width_eq_kl]), secondElement, element_eq_lane]
  | mem m =>
    have hbytes : vl.bytes ≤ 64 := by cases vl <;> decide
    rcases memRead_cases s (effAddr vl (Src2.mem m).instrLength m s) vl.bytes with ⟨-, hr⟩ | ⟨-, hr⟩
    · rw [fetchSrc2, hr] at h
      cases h
      rw [element_eq_lane, lane_loadBytes _ _ _ _ hbytes, if_pos (by rwa [← width_eq_bytes]), secondElement]
    · rw [fetchSrc2, hr] at h
      cases h

theorem fetchSrc2_eq_ok_of_admitted {vl : VLen} {src2 : Src2} {s : State} (h : Src2Admitted vl src2 s) :
    ∃ b, fetchSrc2 vl src2 s = .ok b := by
  cases src2 with
  | reg n => exact ⟨_, rfl⟩
  | mem m => exact ⟨_, memRead_eq_ok_of_admitted (h m rfl)⟩

/-- The destination of a completed instruction, bit by bit (40_vpcmpb_vpcmpub.md R72, R74). -/
theorem exec_next_getLsbD_iff {i : Instr} {s t : State} (h : exec i s = .next t) (j : Nat) :
    (t.kreg i.operands.kd).getLsbD j = true ↔ j < width i.vlen ∧ laneEnabled i.operands.kw s j ∧
      relation (predNumber i.operands.imm8) (number i.signedness (element (s.vreg i.operands.vs1) j))
        (number i.signedness (secondElement i.vlen i.operands.src2 s j)) := by
  obtain ⟨b, -, hb, rfl⟩ := exec_eq_next h
  rw [State.kreg_setPc, State.kreg_setK_self, vpcmp_kl_getLsbD, Bool.and_eq_true, Bool.and_eq_true,
    decide_eq_true_iff, fetchMask_all_iff, and_assoc, ← width_eq_kl]
  refine and_congr_right fun hj => and_congr_right fun _ => ?_
  rw [laneHolds_eq_relHolds, relHolds_predicateOfImm_iff, element_of_fetchSrc2_eq_ok hb hj, fetchSrc1,
    element_eq_lane (lowBits ..), lane_lowBits _ (by rwa [← width_eq_kl]), ← element_eq_lane]

theorem exec_next_laneResults {i : Instr} {s t : State} (h : exec i s = .next t) :
    laneResults i.signedness i.vlen i.operands s t :=
  fun j hj => (exec_next_getLsbD_iff h j).trans (and_iff_right hj)

theorem exec_next_upperZero {i : Instr} {s t : State} (h : exec i s = .next t) : upperZero i.vlen i.operands t :=
  fun j hj => Bool.eq_false_of_not_eq_true fun hbit => hj.not_gt ((exec_next_getLsbD_iff h j).mp hbit).1

theorem exec_next_othersUnchanged {i : Instr} {s t : State} (h : exec i s = .next t) :
    othersUnchanged i.operands.kd s t := by
  obtain ⟨b, -, -, rfl⟩ := exec_eq_next h
  exact ⟨fun r hr => State.kreg_setK_other s _ hr, fun _ => rfl, fun _ => rfl, rfl, rfl, fun _ => rfl, rfl⟩

theorem exec_next_pc {i : Instr} {s t : State} (h : exec i s = .next t) : t.pc = s.pc + BitVec.ofNat 64 i.length := by
  obtain ⟨b, -, -, rfl⟩ := exec_eq_next h
  rfl

/-- Settles O16: each part of the effect by the lemma about it. -/
theorem completedInstructionWritesOnlyDestinationAndPc : Obligations.CompletedInstructionWritesOnlyDestinationAndPc :=
  fun _ _ _ h => ⟨exec_next_laneResults h, exec_next_upperZero h, exec_next_pc h, exec_next_othersUnchanged h⟩

/-- Where the checks pass and the memory operand is admitted, nothing stops the instruction. -/
theorem completesAs_of_ready {i : Instr} {s : State} (hready : Ready i.vlen i.length s)
    (hadmit : Src2Admitted i.vlen i.operands.src2 s) : completesAs i i.signedness i.vlen i.operands s := by
  obtain ⟨b, hb⟩ := fetchSrc2_eq_ok_of_admitted hadmit
  have h := exec_of_fetchSrc2_eq_ok (gate_eq_none_of_ready hready) hb
  exact ⟨_, h, exec_next_laneResults h, exec_next_upperZero h, exec_next_othersUnchanged h, exec_next_pc h⟩

/-- Settles O14: the three signed rows of `completesAs_of_ready`. -/
theorem vpcmpbRowsCompleteWithSignedComparison : Obligations.VpcmpbRowsCompleteWithSignedComparison := fun o _ =>
  ⟨completesAs_of_ready (i := .vpcmpb128 o), completesAs_of_ready (i := .vpcmpb256 o),
    completesAs_of_ready (i := .vpcmpb512 o)⟩

/-- Settles O15: the three unsigned rows of `completesAs_of_ready`. -/
theorem vpcmpubRowsCompleteWithUnsignedComparison : Obligations.VpcmpubRowsCompleteWithUnsignedComparison := fun o _ =>
  ⟨completesAs_of_ready (i := .vpcmpub128 o), completesAs_of_ready (i := .vpcmpub256 o),
    completesAs_of_ready (i := .vpcmpub512 o)⟩

end Sys2Proof.Machine
end

section
/-! SUPPORT. O18, O19, O20: what the bits of the destination say of masked-off lanes, of the destination's old value and
of special operands. -/

namespace Sys2Proof.Machine

open Sys2Proof.Claims

/-! ### Masked-off lanes -/

/-- Two completed runs of one instruction leave the same destination where the same lanes are enabled and these lanes
hold the same elements. -/
theorem exec_next_kreg_congr {i : Instr} {s s' t t' : State} (h : exec i s = .next t) (h' : exec i s' = .next t')
    (hmask : ∀ j, laneEnabled i.operands.kw s' j ↔ laneEnabled i.operands.kw s j)
    (hsrc : ∀ j < width i.vlen, laneEnabled i.operands.kw s j →
      element (s'.vreg i.operands.vs1) j = element (s.vreg i.operands.vs1) j ∧
      secondElement i.vlen i.operands.src2 s' j = secondElement i.vlen i.operands.src2 s j) :
    t'.kreg i.operands.kd = t.kreg i.operands.kd := by
  apply BitVec.eq_of_getLsbD_eq
  intro j _
  rw [Bool.eq_iff_iff, exec_next_getLsbD_iff h, exec_next_getLsbD_iff h', hmask]
  refine and_congr_right fun hj => and_congr_right fun hen => ?_
  obtain ⟨hfirst, hsecond⟩ := hsrc j hj hen
  rw [hfirst, hsecond]

/-- Settles O18: the decoder's part by the encoding of what it accepts (O2), whose byte 3 has `z = 0`. -/
theorem maskedOffLanesAreZeroAndIgnored : Obligations.MaskedOffLanesAreZeroAndIgnored := by
  refine ⟨fun i s t n j h hkw hoff => ?_, fun policy bs i rest hlen h => ?_, fun i s s' t t' h h' hk hsrc => ?_⟩
  · refine Bool.eq_false_of_not_eq_true fun hbit => ?_
    obtain ⟨-, hen, -⟩ := (exec_next_getLsbD_iff h j).mp hbit
    exact absurd (hen n hkw) (by simp [hoff])
  · obtain ⟨rfl, -, -⟩ := acceptedBytesAreTheEncoding policy bs i rest h
    change (encodeP2 i.vlen i.operands.vs1 i.operands.kw).getLsbD 7 = false
    obtain ⟨hz, -⟩ := eq_encodeP2_iff.mp (rfl : encodeP2 i.vlen i.operands.vs1 i.operands.kw = _)
    have hbit := congrArg (fun x : BitVec 1 => x.getLsbD 0) hz
    simpa [field] using hbit
  · refine exec_next_kreg_congr h h' (fun j => ?_) hsrc
    simp only [laneEnabled, State.kreg, hk]

/-! ### The old destination -/

theorem toNat_lt_of_upperZero {vl : VLen} {o : Operands} {t : State} (h : upperZero vl o t) :
    (t.kreg o.kd).toNat < 2 ^ width vl :=
  Nat.lt_pow_two_of_testBit _ fun j hj => h j hj

theorem State.setK_setK (s : State) (n : KReg) (m m' : Mask) : (s.setK n m).setK n m' = s.setK n m' := by
  simp [State.setK]

theorem fetchMask_setK {kw : Option KReg} {n : KReg} (s : State) (m : Mask) (h : kw ≠ some n) :
    fetchMask kw (s.setK n m) = fetchMask kw s := by
  cases kw with
  | none => rfl
  | some r => exact congrArg some (State.kreg_setK_other s m fun hr => h (congrArg some hr))

/-- No source but the writemask is a mask register (10_state.md R20). -/
theorem fetchSrc2_setK (vl : VLen) (src2 : Src2) (s : State) (n : KReg) (m : Mask) :
    fetchSrc2 vl src2 (s.setK n m) = fetchSrc2 vl src2 s := by
  cases src2 with
  | reg r => rfl
  | mem a =>
    rw [fetchSrc2, fetchSrc2, effAddr_congr (s := s) rfl rfl]
    exact memRead_congr rfl rfl rfl _ _

theorem exec_setK_kd {i : Instr} {s t : State} (old : Mask) (h : exec i s = .next t)
    (hkw : i.operands.kw ≠ some i.operands.kd) : exec i (s.setK i.operands.kd old) = .next t := by
  obtain ⟨b, hg, hb, rfl⟩ := exec_eq_next h
  have hg' : gate i.vlen i.length (s.setK i.operands.kd old) = none := (gate_congr rfl rfl).trans hg
  rw [exec_of_fetchSrc2_eq_ok hg' ((fetchSrc2_setK ..).trans hb), fetchMask_setK s old hkw, State.setK_setK]
  rfl

/-- Settles O19: every upper bit is 0, and the old destination is none of the operands. -/
theorem upperDestinationBitsAreZeroAndOldValueIsLost : Obligations.UpperDestinationBitsAreZeroAndOldValueIsLost := by
  refine ⟨fun o s t h => toNat_lt_of_upperZero (vl := .v128) ?_,
    fun o s t h => toNat_lt_of_upperZero (vl := .v256) ?_, fun _ _ _ old => exec_setK_kd old⟩
  · exact h.elim exec_next_upperZero exec_next_upperZero
  · exact h.elim exec_next_upperZero exec_next_upperZero

/-! ### Special operands -/

/-- The predicates that hold of a number and itself: EQ, LE, NLT and TRUE (40_vpcmpb_vpcmpub.md R84 b). -/
theorem relation_self_iff {n : Nat} (hn : n < 8) (a : Int) : relation n a a ↔ n ∈ [0, 2, 5, 7] := by
  interval_cases n <;> simp [relation]

/-- The enabled lanes as a number: all ones without a writemask, else its low bits. -/
theorem testBit_low_iff_laneEnabled_none (w j : Nat) (s : State) :
    (2 ^ w - 1).testBit j = true ↔ j < w ∧ laneEnabled none s j := by
  simp [Nat.testBit_two_pow_sub_one, laneEnabled]

theorem testBit_low_iff_laneEnabled_some (w j : Nat) (s : State) (n : KReg) :
    ((s.kreg n).toNat % 2 ^ w).testBit j = true ↔ j < w ∧ laneEnabled (some n) s j := by
  simp [Nat.testBit_mod_two_pow, laneEnabled, BitVec.testBit_toNat]

section
variable {i : Instr} {s t : State}

/-- FALSE sets no bit (40_vpcmpb_vpcmpub.md R84 c). -/
theorem exec_next_kreg_of_false (h : exec i s = .next t) (hp : predNumber i.operands.imm8 = 3) :
    t.kreg i.operands.kd = 0 := by
  apply BitVec.eq_of_getLsbD_eq
  intro j _
  rw [Bool.eq_iff_iff, exec_next_getLsbD_iff h, hp]
  simp [relation]

/-- TRUE copies the enabled lanes (40_vpcmpb_vpcmpub.md R84 d). -/
theorem exec_next_toNat_of_true (h : exec i s = .next t) (hp : predNumber i.operands.imm8 = 7) {m : Nat}
    (hm : ∀ j, m.testBit j = true ↔ j < width i.vlen ∧ laneEnabled i.operands.kw s j) :
    (t.kreg i.operands.kd).toNat = m := by
  apply Nat.eq_of_testBit_eq
  intro j
  rw [BitVec.testBit_toNat, Bool.eq_iff_iff, exec_next_getLsbD_iff h, hm, hp]
  simp [relation]

/-- With no enabled lane the result is 0 (40_vpcmpb_vpcmpub.md R84 e). -/
theorem exec_next_kreg_of_no_lane (h : exec i s = .next t)
    (hm : ∀ j, ¬ (j < width i.vlen ∧ laneEnabled i.operands.kw s j)) : t.kreg i.operands.kd = 0 := by
  apply BitVec.eq_of_getLsbD_eq
  intro j _
  refine (Bool.eq_false_of_not_eq_true fun hbit => ?_).trans BitVec.getLsbD_zero.symm
  obtain ⟨hj, hen, -⟩ := (exec_next_getLsbD_iff h j).mp hbit
  exact hm j ⟨hj, hen⟩

end

/-- Settles O20: each case from the destination's bits. -/
theorem cornerCasesOfTheRows : Obligations.CornerCasesOfTheRows := by
  intro i s t h
  refine ⟨fun j hkw hbit => ?_, fun j hj hsrc => ?_, exec_next_kreg_of_false h,
    fun hp => ⟨fun hkw => ?_, fun n hkw => ?_⟩, fun n hkw hzero => ?_⟩
  · obtain ⟨-, hen, -⟩ := (exec_next_getLsbD_iff h j).mp hbit
    exact hen _ hkw
  · rw [exec_next_laneResults h j hj, hsrc, secondElement,
      relation_self_iff (n := predNumber i.operands.imm8) (Nat.mod_lt _ (by decide))]
  · refine exec_next_toNat_of_true h hp fun j => ?_
    rw [hkw, testBit_low_iff_laneEnabled_none]
  · refine exec_next_toNat_of_true h hp fun j => ?_
    rw [hkw, testBit_low_iff_laneEnabled_some]
  · refine exec_next_kreg_of_no_lane h fun j => ?_
    rw [hkw, ← testBit_low_iff_laneEnabled_some, hzero, Nat.zero_testBit]
    exact Bool.false_ne_true

end Sys2Proof.Machine
end

section
/-! SUPPORT. The family of 60_exceptions.md: no byte string as long as the longest instruction ends early for the
decoder (entry 18), along the functions of the decoder. -/

namespace Sys2Proof

/-- Behind a test that refuses, a refusal under another reason comes from what follows the test. -/
theorem eq_error_of_ite_error {ε α : Type} {c : Prop} [Decidable c] {r r' : ε} {x : Except ε α} (hne : r ≠ r')
    (h : (if c then .error r else x) = .error r') : x = .error r' := by
  split at h
  · exact absurd (Except.error.inj h) hne
  · exact h

/-! ### Enough bytes for operand 3 -/

theorem exists_takeD32_eq_ok {bs : List Byte} (hlen : 4 ≤ bs.length) : ∃ d rest, takeD32 bs = .ok (d, rest) := by
  rcases bs with _ | ⟨a, _ | ⟨b, _ | ⟨c, _ | ⟨d, bs⟩⟩⟩⟩
  case cons.cons.cons.cons => exact ⟨_, _, rfl⟩
  all_goals simp at hlen

/-- A displacement has at most four bytes (30_encoding.md R56). -/
theorem exists_takeDisp_eq_ok (md : BitVec 2) {bs : List Byte} (hlen : 4 ≤ bs.length) :
    ∃ disp rest, takeDisp md bs = .ok (disp, rest) := by
  obtain ⟨d32, rest32, hd32⟩ := exists_takeD32_eq_ok hlen
  unfold takeDisp
  split
  · exact ⟨_, _, rfl⟩
  split
  · cases bs with
    | nil => simp at hlen
    | cons d rest => exact ⟨_, _, rfl⟩
  · rw [hd32]
    exact ⟨_, _, rfl⟩

section
variable {x b : BitVec 1} {md : BitVec 2} {bs : List Byte}

theorem decodeSib_ne_truncated {sib : Byte} (hlen : 4 ≤ bs.length) :
    decodeSib x b md sib bs ≠ .error .truncated := by
  obtain ⟨d32, rest32, hd32⟩ := exists_takeD32_eq_ok hlen
  obtain ⟨disp, rest, hdisp⟩ := exists_takeDisp_eq_ok md hlen
  intro h
  simp only [decodeSib, hd32, hdisp] at h
  split at h
  · cases eq_error_of_ite_error (by decide) h
  · cases h

theorem decodeMem_ne_truncated {rm : BitVec 3} (hlen : 5 ≤ bs.length) :
    decodeMem x b md rm bs ≠ .error .truncated := by
  obtain ⟨d32, rest32, hd32⟩ := exists_takeD32_eq_ok (Nat.le_of_succ_le hlen)
  obtain ⟨disp, rest, hdisp⟩ := exists_takeDisp_eq_ok md (Nat.le_of_succ_le hlen)
  intro h
  simp only [decodeMem, hd32, hdisp] at h
  split at h
  · cases bs with
    | nil => simp at hlen
    | cons sib rest => exact decodeSib_ne_truncated (Nat.le_of_succ_le_succ hlen) h
  split at h
  · cases eq_error_of_ite_error (by decide) h
  · cases eq_error_of_ite_error (by decide) h

theorem decodeSrc2_ne_truncated {p0 modrm : Byte} (hlen : 5 ≤ bs.length) :
    decodeSrc2 p0 modrm bs ≠ .error .truncated := by
  intro h
  simp only [decodeSrc2] at h
  split at h
  · cases h
  split at h
  · cases h
  · next hmem =>
    cases h
    exact decodeMem_ne_truncated hlen hmem

end

/-- Operand 3 takes the SIB and displacement bytes of its spelling, at most 5 (30_encoding.md R59). -/
theorem length_le_of_decodeSrc2_eq_ok {p0 modrm : Byte} {bs rest : List Byte} {src2 : Src2}
    (h : decodeSrc2 p0 modrm bs = .ok (src2, rest)) : bs.length ≤ 5 + rest.length := by
  obtain ⟨-, tail, he, rfl⟩ := decodeSrc2_eq_ok_iff.mp h
  have htail := Laws.encodeSrc2_tail_length src2
  rw [he] at htail
  rw [List.length_append, htail]
  exact Nat.add_le_add_right src2.extraLength_le _

/-! ### The whole instruction -/

/-- Each test of bytes 0 to 4 refuses under a reason of its own (30_encoding.md R67). -/
theorem decodeForm_ne_truncated (b0 p0 p1 p2 op : Byte) : decodeForm b0 p0 p1 p2 op ≠ .error .truncated := by
  intro h
  unfold decodeForm at h
  replace h := eq_error_of_ite_error (by decide) (eq_error_of_ite_error (by decide) h)
  split at h
  · cases h
  · iterate 5 replace h := eq_error_of_ite_error (by decide) h
    split at h
    · cases h
    · cases h

/-- Six bytes up to ModRM, at most five of operand 3, and the immediate: a byte string of the longest instruction's
length never ends early (30_encoding.md R59). -/
theorem decode_ne_truncated {policy : ImmPolicy} {bs : List Byte} (hlen : Config.maxLength ≤ bs.length) :
    decode policy bs ≠ .error .truncated := by
  rw [Config.maxLength] at hlen
  rcases bs with _ | ⟨b0, _ | ⟨p0, _ | ⟨p1, _ | ⟨p2, _ | ⟨op, _ | ⟨modrm, tail⟩⟩⟩⟩⟩⟩
  case cons.cons.cons.cons.cons.cons =>
    simp only [List.length_cons] at hlen
    intro h
    cases hform : decodeForm b0 p0 p1 p2 op with
    | error r =>
      rw [decode_of_decodeForm_eq_error hform] at h
      cases h
      exact decodeForm_ne_truncated _ _ _ _ _ hform
    | ok form =>
      obtain ⟨sg, vl⟩ := form
      rcases hsrc : decodeSrc2 p0 modrm tail with r | ⟨src2, _ | ⟨imm8, rest⟩⟩
      · rw [decode_of_decodeSrc2_eq_error hform hsrc] at h
        cases h
        exact decodeSrc2_ne_truncated (by omega) hsrc
      · have := length_le_of_decodeSrc2_eq_ok hsrc
        rw [List.length_nil] at this
        omega
      · rw [decode_of_decodeSrc2_eq_ok hform hsrc] at h
        split at h <;> cases h
  all_goals simp at hlen

end Sys2Proof

namespace Sys2Proof.Machine

theorem fetchDecode_eq_error_iff {s : State} {r : DecodeReason} :
    fetchDecode s = .error r ↔ decode s.launch.immPolicy (fetchWindow s) = .error r := by
  unfold fetchDecode
  rcases decode s.launch.immPolicy (fetchWindow s) with r' | ⟨i, rest⟩
  · simp
  · exact ⟨nofun, nofun⟩

/-- The fetch reads as many bytes as the longest instruction has. -/
theorem fetchDecode_ne_truncated (s : State) : fetchDecode s ≠ .error .truncated := by
  rw [ne_eq, fetchDecode_eq_error_iff]
  exact decode_ne_truncated (s.mem.length_bytesFrom s.pc _).ge

end Sys2Proof.Machine
end

section
/-! SUPPORT. O12: what stops an instruction, and what stops a step. -/

namespace Sys2Proof.Machine

open Sys2Proof.Claims

/-- An instruction completes, stops in one of its checks, or faults in the fetch of a memory operand. -/
theorem exec_cases (i : Instr) (s : State) :
    (∃ t, exec i s = .next t) ∨
    exec i s = .refused (.ipWrap s.pc) ∨
    exec i s = .refused (.not64BitMode s.pc) ∨
    exec i s = .fault (.invalidOpcode s.pc) ∨
    exec i s = .fault (.deviceNotAvailable s.pc) ∨
    ∃ m, i.operands.src2 = .mem m ∧
      exec i s = .fault (.memFault s.pc (effAddr i.vlen i.length m s) (width i.vlen)) := by
  cases hg : gate i.vlen i.length s with
  | some stop =>
    rw [exec_of_gate_eq_some hg]
    rcases gate_eq_some hg with ⟨h, -⟩ | ⟨h, -⟩ | ⟨h, -⟩ | ⟨h, -⟩
    · exact .inr (.inr (.inl h))
    · exact .inr (.inl h)
    · exact .inr (.inr (.inr (.inl h)))
    · exact .inr (.inr (.inr (.inr (.inl h))))
  | none =>
    cases hf : fetchSrc2 i.vlen i.operands.src2 s with
    | ok b => exact .inl ⟨_, exec_of_fetchSrc2_eq_ok hg hf⟩
    | error f =>
      obtain ⟨m, hm, rfl, -⟩ := fetchSrc2_eq_error hf
      refine .inr (.inr (.inr (.inr (.inr ⟨m, hm, ?_⟩))))
      rw [exec_of_fetchSrc2_eq_error hg hf, width_eq_bytes, Instr.length]

/-- Settles O12: a step refuses the mode, refuses the bytes, or answers what the decoded instruction answers. -/
theorem stepOutcomesAreTheListedOnes : Obligations.StepOutcomesAreTheListedOnes := by
  intro s
  rcases step_cases s with ⟨-, hstep⟩ | ⟨-, r, hr, hstep⟩ | ⟨-, i, hi, hstep⟩
  · exact .inr (.inr (.inr (.inl hstep)))
  · refine .inr (.inl ⟨r, ?_, hstep⟩)
    rintro rfl
    exact fetchDecode_ne_truncated s hr
  · rw [hstep]
    rcases exec_cases i s with hnext | hstop
    · exact .inl hnext
    · refine .inr (.inr (hstop.imp_right (.imp_right (.imp_right (.imp_right ?_)))))
      rintro ⟨m, hm, hfault⟩
      exact ⟨i, m, hi, hm, hfault⟩

end Sys2Proof.Machine
end

section
/-! SUPPORT. O11: the refusals that stand before the instruction. -/

namespace Sys2Proof.Machine

/-- Settles O11: the mode is asked first, then the bytes; each case of the step excludes the others' premises. -/
theorem stepRefusesOtherModesAndUndecodedBytes : Obligations.StepRefusesOtherModesAndUndecodedBytes := by
  intro s
  constructor
  · intro hmode
    rw [step, if_pos hmode, refuse]
  · intro hmode r hr
    rw [step, if_neg (not_not_intro hmode), fetchDecode_eq_error_iff.mpr hr]
    rfl

end Sys2Proof.Machine
end

section
/-! SUPPORT. O32: the feature flags, the first check after the two refusals. -/

namespace Sys2Proof.Machine

/-- Below 512 bits AVX512VL is needed beside AVX512BW (60_exceptions.md R96). -/
theorem Launch.hasFeatures_eq_false_iff {l : Launch} {vl : VLen} :
    l.hasFeatures vl = false ↔ l.avx512bw = false ∨ vl ≠ .v512 ∧ l.avx512vl = false := by
  rw [Launch.hasFeatures, Bool.and_eq_false_iff, Bool.or_eq_false_iff, beq_eq_false_iff_ne,
    and_comm (b := vl ≠ .v512)]

theorem gate_of_missing_feature {vl : VLen} {len : Nat} {s : State} (hmode : s.launch.mode = .bits64)
    (hpc : s.pc.toNat + len < 2 ^ 64) (hf : s.launch.hasFeatures vl = false) :
    gate vl len s = some (.fault (.invalidOpcode s.pc)) := by
  rw [gate, if_neg (not_not_intro hmode), if_neg (Nat.not_le.mpr hpc), hf, raise]
  rfl

/-- Settles O32: the flags are asked before the enabling bits and before the operands are fetched (60_exceptions.md
R100). -/
theorem clearFeatureFlagRaisesInvalidOpcode : Obligations.ClearFeatureFlagRaisesInvalidOpcode := by
  intro i s hmode hpc hflag
  exact exec_of_gate_eq_some (gate_of_missing_feature hmode hpc (Launch.hasFeatures_eq_false_iff.mpr hflag))

end Sys2Proof.Machine
end

section
/-! SUPPORT. O39: what the launch invariant reads, and what keeps it. -/

namespace Sys2Proof.Machine

/-- The invariant reads memory and the launch's parameters only. -/
theorem LaunchInv.congr {s t : State} (h : LaunchInv s) (hmem : t.mem = s.mem) (hlaunch : t.launch = s.launch) :
    LaunchInv t := by
  rwa [LaunchInv, hmem, hlaunch]

theorem AdvancedBy.launchInv {n : Nat} {s t : State} (h : AdvancedBy n s t) (hs : LaunchInv s) : LaunchInv t :=
  hs.congr h.mem h.launch

/-- Settles O39: a completed step writes neither memory nor the launch's parameters (O42's step lemma). -/
theorem stepKeepsTheLaunchInvariant : Obligations.StepKeepsTheLaunchInvariant :=
  fun _ _ hs h => (step_advancedBy h).launchInv hs

end Sys2Proof.Machine
end

section
/-! SUPPORT. O43: a straight-line sequence instruction by instruction. -/

namespace Sys2Proof.Machine

open Sys2Proof.Claims

/-! ### Bytes one after another -/

theorem holdsBytes_of_append {m : Memory} {a : Addr} {bs bs' : List Byte} (h : holdsBytes m a (bs ++ bs')) :
    holdsBytes m a bs ∧ holdsBytes m (a + BitVec.ofNat 64 bs.length) bs' := by
  constructor
  · intro n hn
    rw [h n (by rw [List.length_append]; omega), List.getElem_append_left hn]
  · intro n hn
    rw [BitVec.add_assoc, ← BitVec.ofNat_add, h (bs.length + n) (by rw [List.length_append]; omega),
      List.getElem_append_right (Nat.le_add_right ..)]
    simp only [Nat.add_sub_cancel_left]

theorem programBytes_cons (i : Instr) (is : List Instr) : programBytes (i :: is) = encode i ++ programBytes is :=
  List.flatMap_cons

/-- The program's length, with the first instruction's as 30_encoding.md R59 counts it. -/
theorem length_programBytes_cons (i : Instr) (is : List Instr) :
    (programBytes (i :: is)).length = i.length + (programBytes is).length := by
  rw [programBytes_cons, List.length_append, (Laws.encodingShape_of i).1]

/-! ### Runs -/

/-- A run goes on from the state that completed steps lead to. -/
theorem run_add_of_run_eq_next {M : Host.Core} {m : Nat} {s u : M.State} (n : Nat) (h : M.run m s = .next u) :
    M.run (m + n) s = M.run n u := by
  induction m generalizing s with
  | zero =>
    cases h
    rw [Nat.zero_add]
  | succ m ih =>
    obtain ⟨v, hv, hrest⟩ := run_succ_eq_next h
    rw [Nat.add_right_comm, run_succ_of_next _ hv, ih hrest]

/-- Completed steps move `pc` up, so no earlier state of a run has the `pc` of a later one. -/
theorem pc_ne_of_run_lt {m n : Nat} {s u t : State} (hmn : m < n) (hu : Sys2Proof.core.run m s = .next u)
    (ht : Sys2Proof.core.run n s = .next t) : u.pc ≠ t.pc := by
  obtain ⟨k, rfl⟩ := Nat.exists_eq_add_of_lt hmn
  rw [Nat.add_assoc, run_add_of_run_eq_next _ hu] at ht
  have hge := (run_advancedBy ht).pc_ge
  intro hpc
  rw [hpc] at hge
  omega

/-! ### The sequence -/

/-- The premises of a straight-line run: the launch invariant holds, every address is admitted, the instructions can be
spelled under the launch's policy, and their encodings stand one after another from `pc` on, below the top of the
address space (70_reset_and_hazards.md R111, R115). -/
structure ReadyToRun (is : List Instr) (s : State) : Prop where
  inv : LaunchInv s
  spelled : ∀ i ∈ is, i.wellFormed = true ∧ immAdmitted s.launch.immPolicy i.operands.imm8 = true
  admits : ∀ a, s.memAdmit a = true
  bytes : holdsBytes s.mem s.pc (programBytes is)
  below_top : s.pc.toNat + (programBytes is).length < 2 ^ 64

section
variable {i : Instr} {is : List Instr} {s u : State}

theorem ReadyToRun.first_steps (h : ReadyToRun (i :: is) s) : ∃ u, exec i s = .next u ∧ step s = .next u := by
  obtain ⟨-, hpremises, -⟩ := h.inv
  obtain ⟨hwf, himm⟩ := h.spelled i List.mem_cons_self
  have hpc := h.below_top
  have hbytes := h.bytes
  rw [length_programBytes_cons] at hpc
  rw [programBytes_cons] at hbytes
  have hready : Ready i.vlen i.length s := ⟨hpremises i.vlen, by omega⟩
  obtain ⟨u, hu, -⟩ := completesAs_of_ready hready fun _ _ _ _ => h.admits _
  exact ⟨u, hu, (stepRunsTheEncodingAtPc s i hwf himm (holdsBytes_of_append hbytes).1).trans hu⟩

/-- Behind the first instruction the rest stands ready: only mask registers and `pc` have changed. -/
theorem ReadyToRun.rest (h : ReadyToRun (i :: is) s) (hu : exec i s = .next u) : ReadyToRun is u := by
  have hadv := exec_advancedBy hu
  have htop := h.below_top
  have hbytes := h.bytes
  rw [length_programBytes_cons] at htop
  rw [programBytes_cons] at hbytes
  refine ⟨hadv.launchInv h.inv, fun j hj => ?_, fun a => ?_, ?_, ?_⟩
  · rw [hadv.launch]
    exact h.spelled j (List.mem_cons_of_mem i hj)
  · rw [State.memAdmit, hadv.launch]
    exact h.admits a
  · rw [hadv.mem, exec_next_pc hu, ← (Laws.encodingShape_of i).1]
    exact (holdsBytes_of_append hbytes).2
  · rw [exec_next_pc_toNat hu]
    omega

theorem ReadyToRun.runs_to_end (h : ReadyToRun is s) :
    ∃ t, Sys2Proof.core.run is.length s = .next t ∧ FinalAt s.pc (programBytes is).length t := by
  induction is generalizing s with
  | nil => exact ⟨s, rfl, (BitVec.add_zero s.pc).symm⟩
  | cons i is ih =>
    obtain ⟨u, hu, hstep⟩ := h.first_steps
    obtain ⟨t, hrun, hfinal⟩ := ih (h.rest hu)
    refine ⟨t, (run_succ_of_next _ hstep).trans hrun, hfinal.trans ?_⟩
    rw [exec_next_pc hu, length_programBytes_cons, BitVec.ofNat_add, BitVec.add_assoc]

end

/-- A run whose last state stands at the program's end has not stood there before (70_reset_and_hazards.md R115). -/
theorem endsAfter_of_run {base : Addr} {length n : Nat} {s t : State} (hn : 0 < n)
    (hrun : Sys2Proof.core.run n s = .next t) (hfinal : FinalAt base length t) : EndsAfter base length n s t :=
  ⟨hn, hrun, hfinal, fun _ _ _ hlt hu hend => pc_ne_of_run_lt hlt hu hrun (hend.trans hfinal.symm)⟩

/-- Settles O43: by induction on the sequence (`ReadyToRun.runs_to_end`); the end is not reached before because every
step moves `pc` up. -/
theorem straightLineSequencesRunToTheirEnd : Obligations.StraightLineSequencesRunToTheirEnd := by
  intro is s hinv hspelled hadmits hbytes htop
  obtain ⟨t, hrun, hfinal⟩ := ReadyToRun.runs_to_end ⟨hinv, hspelled, hadmits, hbytes, htop⟩
  refine ⟨t, hrun, hfinal, fun hne => ?_⟩
  have hend := endsAfter_of_run (List.length_pos_of_ne_nil hne) hrun hfinal
  exact ⟨hend, ⟨rfl, by omega, hbytes⟩, is.length, t, hend⟩

end Sys2Proof.Machine
end

section
/-! SUPPORT. O22: an instruction beside the same one without its writemask. -/

namespace Sys2Proof.Machine

open Sys2Proof.Claims

/-- A writemask masks the unmasked result (40_vpcmpb_vpcmpub.md R90). -/
theorem kreg_eq_withoutMask_and {i : Instr} {n : KReg} {s t t' : State} (hkw : i.operands.kw = some n)
    (h : exec i s = .next t) (h' : exec (withoutMask i) s = .next t') :
    t.kreg i.operands.kd = t'.kreg i.operands.kd &&& s.kreg n := by
  have hunmasked := exec_next_getLsbD_iff h'
  simp only [withoutMask, Instr.operands_ofForm, Instr.vlen_ofForm, Instr.signedness_ofForm] at hunmasked
  apply BitVec.eq_of_getLsbD_eq
  intro j _
  rw [BitVec.getLsbD_and, Bool.eq_iff_iff, Bool.and_eq_true, exec_next_getLsbD_iff h, hunmasked, hkw]
  simp only [laneEnabled, Option.some.injEq, forall_eq', reduceCtorEq, false_implies, implies_true, true_and]
  tauto

/-- Settles O22: the second instruction starts in the very state in which the first has written its result. -/
theorem resultIsVisibleAsTheNextWritemask : Obligations.ResultIsVisibleAsTheNextWritemask :=
  fun _ _ _ _ _ _ _ hkw hu hu' => kreg_eq_withoutMask_and hkw hu hu'

end Sys2Proof.Machine
end

section
/-! SUPPORT. O41: the stops that the launch premises leave. -/

namespace Sys2Proof.Machine

/-- Under the launch premises only the top of the address space or the memory operand stops an instruction. -/
theorem exec_cases_of_premises {i : Instr} {s : State} (h : s.launch.premises i.vlen) :
    (∃ t, exec i s = .next t) ∨ exec i s = .refused (.ipWrap s.pc) ∨
      ∃ ea n, exec i s = .fault (.memFault s.pc ea n) := by
  by_cases hpc : s.pc.toNat + i.length < 2 ^ 64
  · have hg := gate_eq_none_of_ready ⟨h, hpc⟩
    cases hf : fetchSrc2 i.vlen i.operands.src2 s with
    | ok b => exact .inl ⟨_, exec_of_fetchSrc2_eq_ok hg hf⟩
    | error f =>
      obtain ⟨m, -, rfl, -⟩ := fetchSrc2_eq_error hf
      exact .inr (.inr ⟨_, _, exec_of_fetchSrc2_eq_error hg hf⟩)
  · obtain ⟨hmode, -⟩ := h
    exact .inr (.inl (exec_of_gate_eq_some (gate_of_pc_passes_top hmode (Nat.not_lt.mp hpc))))

/-- Settles O41: the mode is 64-bit mode, so a step refuses the bytes or answers what the decoded instruction answers. -/
theorem invariantLeavesOnlyThreeStops : Obligations.InvariantLeavesOnlyThreeStops := by
  rintro s ⟨-, hpremises, -⟩
  obtain ⟨hbits64, -⟩ := hpremises .v512
  rcases step_cases s with ⟨hmode, -⟩ | ⟨-, r, -, hstep⟩ | ⟨-, i, -, hstep⟩
  · exact absurd hbits64 hmode
  · exact .inr (.inl ⟨r, hstep⟩)
  · rw [hstep]
    exact (exec_cases_of_premises (hpremises i.vlen)).imp_right .inr

end Sys2Proof.Machine
end

section
/-! SUPPORT. O13: the load of program bytes, read back by the next fetch. -/

namespace Sys2Proof.Machine

theorem holdsBytes_placeAtPc {s : State} {bs : List Byte} (hwf : s.mem.wf = true) (hlen : bs.length ≤ 2 ^ 64) :
    holdsBytes (placeAtPc s bs).mem (placeAtPc s bs).pc bs :=
  Memory.load_storeBytes_self s.pc bs hwf hlen

/-- Bytes over the longest instruction fill the window of the next fetch. -/
theorem fetchWindow_placeAtPc {s : State} {bs : List Byte} (hwf : s.mem.wf = true)
    (hlen : bs.length = Config.maxLength) : fetchWindow (placeAtPc s bs) = bs := by
  obtain ⟨rest, hwin⟩ := fetchWindow_of_holdsBytes
    (holdsBytes_placeAtPc hwf (hlen.trans_le (by decide))) hlen.le
  have hrest : (fetchWindow (placeAtPc s bs)).length = bs.length :=
    ((placeAtPc s bs).mem.length_bytesFrom _ _).trans hlen.symm
  rw [hwin, List.length_append, Nat.add_eq_left, List.length_eq_zero_iff] at hrest
  rw [hwin, hrest, List.append_nil]

theorem decodeTableWord_eq_some_iff {nbits w : Nat} {i : Instr} :
    decodeTableWord nbits w = some i ↔ ∃ rest, decode ImmPolicy.default (wordBytes nbits w) = .ok (i, rest) := by
  unfold decodeTableWord
  rcases decode ImmPolicy.default (wordBytes nbits w) with r | ⟨j, rest⟩
  · exact ⟨nofun, nofun⟩
  · simp

/-- Settles O13: the window of the fetch is the table word's bytes, which the default policy reads as in the table. -/
theorem placedWordIsTheNextInstruction : Obligations.PlacedWordIsTheNextInstruction := by
  intro s nbits w i hwf hpolicy hword
  obtain ⟨rest, hdecode⟩ := decodeTableWord_eq_some_iff.mp hword
  apply step_of_fetchDecode_eq_ok
  rw [fetchDecode, State.withFetchWord, placeAtPc_launch, hpolicy, fetchWindow_placeAtPc hwf (wordBytes_length nbits w),
    hdecode]

end Sys2Proof.Machine
end

section
/-! SUPPORT. O30: a store byte by byte, and the load of what it stored. -/

namespace Sys2Proof.Machine

theorem toNat_lane (v : Vec) (t : Nat) : (lane v t).toNat = v.toNat / 256 ^ t % 256 := by
  rw [lane, BitVec.extractLsb'_toNat, Nat.shiftRight_eq_div_pow, Nat.pow_mul]

/-- A load of a number's bytes is the number, as far as the bytes go. -/
theorem Memory.toNat_loadBytes_of_lanes {m : Memory} {a : Addr} {v : Vec} {n : Nat} (hn : n ≤ 64)
    (h : ∀ t < n, m.load (a + BitVec.ofNat 64 t) = lane v t) : (m.loadBytes a n).toNat = v.toNat % 2 ^ (8 * n) := by
  induction n with
  | zero => rw [Memory.toNat_loadBytes_zero, Nat.mul_zero, Nat.pow_zero, Nat.mod_one]
  | succ n ih =>
    have hlow := ih (by omega) fun t ht => h t (by omega)
    rw [Nat.pow_mul] at hlow ⊢
    rw [m.toNat_loadBytes_succ a (by omega), hlow, h n (by omega), toNat_lane, Nat.mod_pow_succ, Nat.mul_comm]

/-- Each stored byte, also where the addresses wrap (20_memory.md R30). -/
theorem memWrite_load_self {s : State} (addr : Addr) {n : Nat} (v : Vec) (hwf : s.mem.wf = true) (hn : n ≤ 64)
    {t : Nat} (ht : t < n) : (memWrite s addr n v).mem.load (addr + BitVec.ofNat 64 t) = lane v t := by
  rw [memWrite, Memory.load_storeBytes_self addr _ hwf (by simp; omega) t (by simpa using ht)]
  simp [lane]

theorem memWrite_load_other {s : State} {addr a : Addr} {n : Nat} (v : Vec) (hwf : s.mem.wf = true)
    (h : ∀ t < n, a ≠ addr + BitVec.ofNat 64 t) : (memWrite s addr n v).mem.load a = s.mem.load a :=
  Memory.load_storeBytes_other addr a _ hwf (by simpa using h)

/-- Settles O30: a store leaves the admitted windows, so the read is the load of the bytes just stored. -/
theorem memWriteIsReadBack : Obligations.MemWriteIsReadBack := by
  intro s addr n v hwf hn
  refine ⟨fun hadmit => ⟨_, memRead_eq_ok_of_admitted hadmit, ?_⟩, fun a ha => memWrite_load_other v hwf ha⟩
  exact Memory.toNat_loadBytes_of_lanes hn fun t ht => memWrite_load_self addr v hwf hn ht

end Sys2Proof.Machine
end

section
/-! SUPPORT. O33: the enabling bits, the checks behind the feature flags. -/

namespace Sys2Proof.Machine

theorem Launch.hasFeatures_eq_true_iff {l : Launch} {vl : VLen} :
    l.hasFeatures vl = true ↔ l.avx512bw = true ∧ (vl = .v512 ∨ l.avx512vl = true) := by
  rw [Launch.hasFeatures, Bool.and_eq_true, Bool.or_eq_true, beq_iff_eq, or_comm]

theorem Launch.osxsave_and_xcr0Enabled_eq_true_iff {l : Launch} :
    (l.osxsave && l.xcr0Enabled) = true ↔ l.osxsave = true ∧ l.xcr0Sse = true ∧ l.xcr0Avx = true ∧
      l.xcr0Opmask = true ∧ l.xcr0ZmmHi256 = true ∧ l.xcr0Hi16Zmm = true := by
  simp only [Launch.xcr0Enabled, Bool.and_eq_true, and_assoc]

theorem Launch.osxsave_and_xcr0Enabled_eq_false_iff {l : Launch} :
    (l.osxsave && l.xcr0Enabled) = false ↔ l.osxsave = false ∨ l.xcr0Sse = false ∨ l.xcr0Avx = false ∨
      l.xcr0Opmask = false ∨ l.xcr0ZmmHi256 = false ∨ l.xcr0Hi16Zmm = false := by
  simp only [Launch.xcr0Enabled, Bool.and_eq_false_iff, or_assoc]

section
variable {vl : VLen} {len : Nat} {s : State} (hmode : s.launch.mode = .bits64) (hpc : s.pc.toNat + len < 2 ^ 64)
  (hf : s.launch.hasFeatures vl = true)
include hmode hpc hf

/-- What is left of the checks once the feature flags are set. -/
theorem gate_of_hasFeatures : gate vl len s =
    if !(s.launch.osxsave && s.launch.xcr0Enabled) then some (.fault (.invalidOpcode s.pc))
    else if s.launch.ts then some (.fault (.deviceNotAvailable s.pc)) else none := by
  rw [gate, if_neg (not_not_intro hmode), if_neg (Nat.not_le.mpr hpc), hf, raise, raise]
  rfl

theorem gate_of_not_enabled (h : (s.launch.osxsave && s.launch.xcr0Enabled) = false) :
    gate vl len s = some (.fault (.invalidOpcode s.pc)) := by
  rw [gate_of_hasFeatures hmode hpc hf, h]
  rfl

theorem gate_of_ts (h : (s.launch.osxsave && s.launch.xcr0Enabled) = true) (hts : s.launch.ts = true) :
    gate vl len s = some (.fault (.deviceNotAvailable s.pc)) := by
  rw [gate_of_hasFeatures hmode hpc hf, h, hts]
  rfl

end

/-- Settles O33: both stops are answers of the checks, which come before the operands are fetched (60_exceptions.md
R100); the enabling bits are asked before `TS` (entry 9). -/
theorem stateNotEnabledRaises : Obligations.StateNotEnabledRaises := by
  intro i s hmode hpc hbw hvl
  have hf : s.launch.hasFeatures i.vlen = true := Launch.hasFeatures_eq_true_iff.mpr ⟨hbw, hvl⟩
  constructor
  · intro hclear
    exact exec_of_gate_eq_some
      (gate_of_not_enabled hmode hpc hf (Launch.osxsave_and_xcr0Enabled_eq_false_iff.mpr hclear))
  · intro hset hts
    exact exec_of_gate_eq_some
      (gate_of_ts hmode hpc hf (Launch.osxsave_and_xcr0Enabled_eq_true_iff.mpr hset) hts)

end Sys2Proof.Machine
end

section
/-! SUPPORT. O36: an intrinsic on the low bits of the registers beside its instruction on the whole of them. -/

namespace Sys2Proof.Machine

open Sys2Proof.Claims

/-- The result has no bit at or above the element count (40_vpcmpb_vpcmpub.md R74). -/
theorem setWidth_kl_vpcmp (sg : Signedness) (vl : VLen) (p : Predicate) (m : Option Mask) (a b : Vec) :
    ((vpcmp sg vl.kl p m a b).setWidth vl.kl).setWidth 64 = vpcmp sg vl.kl p m a b := by
  apply BitVec.eq_of_getLsbD_eq
  intro j hj
  rw [BitVec.getLsbD_setWidth, BitVec.getLsbD_setWidth, decide_eq_true hj, Bool.true_and, vpcmp_kl_getLsbD,
    ← Bool.and_assoc, ← Bool.and_assoc, Bool.and_self]

/-- The writemask counts only in its low `KL` bits (10_state.md R20). -/
theorem maskLow_setWidth_kl (vl : VLen) (m : Mask) :
    maskLow vl.kl (some ((m.setWidth vl.kl).setWidth 64)) = maskLow vl.kl (some m) := by
  refine maskLow_congr fun j hj => ?_
  rw [width_eq_kl] at hj
  have hj64 : j < 64 := hj.trans_le (VLen.kl_le vl)
  rw [BitVec.getLsbD_setWidth, BitVec.getLsbD_setWidth, decide_eq_true hj, decide_eq_true hj64, Bool.true_and,
    Bool.true_and]

/-- The writemask in effect is the same for a masked and for an unmasked function. -/
theorem maskLow_fetchMask (vl : VLen) (masked : Bool) (n : KReg) (s : State) :
    maskLow vl.kl (fetchMask (if masked then some n else none) s) =
      maskLow vl.kl (if masked then some (((s.kreg n).setWidth vl.kl).setWidth 64) else none) := by
  cases masked with
  | false => rfl
  | true => exact (maskLow_setWidth_kl vl (s.kreg n)).symm

/-- The destination of a completed register form. -/
theorem exec_reg_kreg {i : Instr} {s t : State} {n : VReg} (h : exec i s = .next t)
    (hsrc : i.operands.src2 = .reg n) :
    t.kreg i.operands.kd = vpcmp i.signedness i.vlen.kl (predicateOfImm i.operands.imm8)
      (fetchMask i.operands.kw s) (lowBits i.vlen (s.vreg i.operands.vs1)) (lowBits i.vlen (s.vreg n)) := by
  obtain ⟨b, -, hb, rfl⟩ := exec_eq_next h
  rw [hsrc, fetchSrc2, Except.ok.injEq] at hb
  rw [State.kreg_setPc, State.kreg_setK_self, ← hb, fetchSrc1]

/-- Settles O36: function and instruction compare the same low bits of the sources, and the writemasks agree where they
are in effect. -/
theorem intrinsicReturnsTheInstructionResult : Obligations.IntrinsicReturnsTheInstructionResult := by
  intro f kd n vs1 vs2 cmp s t h
  have hdest := exec_reg_kreg (n := vs2) h (by rw [Instr.operands_ofForm])
  simp only [Instr.operands_ofForm, Instr.vlen_ofForm, Instr.signedness_ofForm] at hdest
  rw [hdest, Intrinsic.value, setWidth_kl_vpcmp, vpcmp, vpcmp, maskLow_fetchMask, lowBits, lowBits]

end Sys2Proof.Machine
end

section
/-! SUPPORT. O38: the line of an instruction. -/

namespace Sys2Proof.Machine

/-- Settles O38: the line writes out the instruction's form and operands, which make up the instruction. -/
theorem assemblyLineStandsForItsInstruction : Obligations.AssemblyLineStandsForItsInstruction := fun i =>
  calc (lineOf i).expand
    _ = some (Instr.ofForm i.signedness i.vlen i.operands) := rfl
    _ = some i := congrArg some i.ofForm_eta

end Sys2Proof.Machine
end

section
/-! SUPPORT. O40: the state a run starts from. -/

namespace Sys2Proof.Machine

theorem Launch.reset_allPremises : Launch.reset.allPremises :=
  fun _ => ⟨rfl, rfl, .inr rfl, rfl, ⟨rfl, rfl, rfl, rfl, rfl⟩, rfl⟩

/-- Settles O40: memory is empty, and the reset launch sets every flag and enabling bit (entries 1 to 6). -/
theorem resetMeetsTheLaunchInvariant : Obligations.ResetMeetsTheLaunchInvariant :=
  ⟨reset_mem_wf, Launch.reset_allPremises, fun _ => rfl⟩

end Sys2Proof.Machine
end
